-- ==== Sys2Proof/Word.lean ====
section
/-! DEFINITION. The beat word, the sample field and the sample range (30_encoding.md R81, 00_scope.md R9). -/

namespace Sys2Proof

/-- One input beat as a word: `B[14] = rst`, `B[13:0] = s` (30_encoding.md R81). -/
abbrev BeatWord := BitVec 15

/-- The 14-bit sample field `s` of a beat (30_encoding.md R81). -/
abbrev SampleField := BitVec 14

/-- The number of taps, fixed (00_scope.md R8, R9). -/
abbrev ntaps : Nat := 32

/-- `SAMPLE_MIN ≤ x ≤ SAMPLE_MAX`: the legal input range of the block (00_scope.md R9, 30_encoding.md R80). -/
abbrev InSampleRange (x : Int) : Prop := -8192 ≤ x ∧ x ≤ 8191

end Sys2Proof
end

