-- ==== Sys2Proof/Config.lean ====
section
/-! DEFINITION. The configuration of an instance (00_scope.md R9, 10_state.md R20, R21): what the driver hands over
at construction, what an admitted instance holds, and the values the spec leaves open. -/

namespace Sys2Proof

/-- The configuration of an instance (10_state.md R21) and its datapath width `ACC_W` (00_scope.md R9).
It is data of the instance: a claim quantifies over it, so no OPEN parameter has a number in the model. -/
structure Config where
  /-- `COEFF[0..31]` in index order; a list, so that a template of another length can be refused (00_scope.md R11). -/
  coeff : List Int
  /-- `THRESHOLD`, any integer. -/
  threshold : Int
  /-- `HOLDOFF`, the dead-time length in steps. -/
  holdoff : Nat
  /-- `FRAME_LEN`, the frame length in steps. -/
  frameLen : Nat
  /-- `PRETRIGGER`, the frame index at which `frame_trigger` fires. -/
  pretrigger : Nat
  /-- `DATA_DELAY`, the raw alignment delay in steps. -/
  dataDelay : Nat
  /-- `XCORR_NEGATE`. -/
  xcorrNegate : Bool
  /-- `XCORR_ABS`. -/
  xcorrAbs : Bool
  /-- `ACC_W`, the width of the datapath registers, which enters only the bound of 00_scope.md R10. -/
  accW : Nat
  deriving DecidableEq, Repr

/-- What the driver hands over at construction, before it is validated: the counts are integers here, so that a
negative one can be refused (00_scope.md R11). The fields are those of `Config`. -/
structure Setup where
  coeff : List Int
  threshold : Int
  holdoff : Int
  frameLen : Int
  pretrigger : Int
  dataDelay : Int
  xcorrNegate : Bool
  xcorrAbs : Bool
  accW : Nat
  deriving DecidableEq, Repr

/-- The configuration of `State.reset`. `FRAME_LEN`, `PRETRIGGER` and `DATA_DELAY` are the source's defaults and
`ACC_W` is the spec's (00_scope.md R9).
DESIGN CHOICE (log entry 5), unsafe: the spec gives COEFF, THRESHOLD, HOLDOFF, XCORR_NEGATE and XCORR_ABS no value,
and zero stands here. No statement rests on these numbers. -/
def Config.atReset : Config where
  coeff := List.replicate ntaps 0
  threshold := 0
  holdoff := 0
  frameLen := 1024
  pretrigger := 64
  dataDelay := 256
  xcorrNegate := false
  xcorrAbs := false
  accW := 64

/-- `BUILTIN_COEFF`: the coefficient set used when no template file is given. Its 32 values are not in the source and
nothing is assumed about them (00_scope.md R9, 91_not_in_source.md N2). -/
opaque builtinCoeff : Vector Int 32

/-- The word on the `frame_id` port for a frame id its width does not hold: a free value, for the spec leaves the
counter's behaviour past `2^FRAME_ID_W − 1` open (92_eei_decisions.md D10, 93_implementation_defined.md I7; log entry 26). -/
opaque frameIdPastWidth (frameIdW id : Nat) : BitVec frameIdW

/-- What a line of a text waveform gives that is neither blank, nor a comment, nor an optionally signed decimal integer:
a value, or nothing when it is malformed and skipped. A free value, for the source does not define the integer syntax
(47_external_collaborators.md R223, 91_not_in_source.md N12; log entry 27). -/
opaque otherTextLine : List Char → Option Int

end Sys2Proof
end

