-- ==== Sys2Proof/Machine/State.lean ====
section
/-! DEFINITION. The state: the block's registers and ring (10_state.md), the instance's configuration, and the driver's
side of a run (beats not yet taken, records produced, step number), all as plain data. -/

namespace Sys2Proof.Machine

/-- The raw delay ring as a list of (slot, sample) pairs, slots strictly rising and no entry 0: a slot that is not
listed reads as 0, its value at construction and after reset (10_state.md R38). The unit is the slot, which is never
accessed as bytes (20_memory.md R60, R62, R64). -/
abbrev Memory := List (Nat × Int)

/-- The block's state `σ` (10_state.md, the tuple at the head of the file). -/
structure Block where
  /-- `r[0..31]`. `r[32]` is hardwired to 0 and has no storage: it is read through `Block.rRead` (10_state.md R24, R25). -/
  r : Vector Int 32
  /-- `d0[0..31]` (10_state.md R26). -/
  d0 : Vector Int 32
  /-- `d1[0..31]` (10_state.md R26). -/
  d1 : Vector Int 32
  /-- `S0` (10_state.md R28). -/
  s0 : Int
  /-- `S1`, reported as `xcorr_raw` (10_state.md R28). -/
  s1 : Int
  /-- `S2` (10_state.md R28). -/
  s2 : Int
  /-- `S3` (10_state.md R28). -/
  s3 : Int
  /-- `hold`, the dead-time counter: 0 is armed (10_state.md R29). -/
  hold : Nat
  /-- `f_active` (10_state.md R30). -/
  fActive : Bool
  /-- `f_index` (10_state.md R30). -/
  fIndex : Nat
  /-- `f_id` (10_state.md R30). -/
  fId : Nat
  /-- `ring[0..DATA_DELAY]` (10_state.md R32). -/
  ring : Memory
  /-- `wp`, the slot the current step writes (10_state.md R34). -/
  wp : Nat
  deriving DecidableEq, Repr

/-- The output record of one step, with the fields and the order of 10_state.md R39. -/
structure OutputRecord where
  index : Nat
  raw : Int
  rawDelayed : Int
  xcorrRaw : Int
  xcorrProc : Int
  trigger : Bool
  frameStart : Bool
  frameActive : Bool
  frameIndex : Nat
  frameId : Nat
  frameTrigger : Bool
  deriving DecidableEq, Repr

/-- The four values `(fa, fi, fid, fs)` of `FrameNext` (44_frame.md R181). -/
structure FrameOut where
  active : Bool
  index : Nat
  id : Nat
  start : Bool
  deriving DecidableEq, Repr

/-- The configuration fields a refusal can name (00_scope.md R11, 60_exceptions.md R241). -/
inductive ConfigField where
  /-- `COEFF` has not exactly 32 entries. -/
  | coeffCount
  /-- `FRAME_LEN < 1`. -/
  | frameLen
  /-- `HOLDOFF < 0`. -/
  | holdoff
  /-- `PRETRIGGER < 0`. -/
  | pretrigger
  /-- `DATA_DELAY < 0`. -/
  | dataDelay
  /-- `COEFF` breaks the bound of 00_scope.md R10 for `ACC_W`. -/
  | coeffBound
  deriving DecidableEq, Repr

/-- Why a step stops. The block itself raises nothing (60_exceptions.md R240). -/
inductive Fault where
  /-- Raised by `step` alone, when the driver has presented no further beat: the run has ended
  (60_exceptions.md R255, 92_eei_decisions.md D19). Log entry 3. Safe: the block takes no step without a beat. -/
  | endOfInput
  deriving DecidableEq, Repr

/-- What the model has no meaning for. -/
inductive Refusal where
  /-- Raised by an arm of `exec` that has no meaning yet. No arm raises it. Safe: nothing is claimed of the step. -/
  | notModelled (mnemonic : String)
  /-- `Refuse(CONFIG)`: raised by `construct`, and by every meaning on a state whose configuration is illegal, with the
  offending field (60_exceptions.md R241). Safe: a refused instance takes no step. -/
  | config (field : ConfigField)
  /-- `Refuse(SAMPLE)`: raised by the meanings of STEP and RESET when the sample lies outside [−8192, 8191], with the
  step number and the value (60_exceptions.md R241, 30_encoding.md R83). Safe: no record and no next state. -/
  | sample (stepNumber : Nat) (value : Int)
  deriving DecidableEq, Repr

/-- An instance of the block and the driver's side of its run. -/
structure State where
  /-- The configuration, written at construction only (10_state.md R20). -/
  cfg : Config
  /-- The block's state `σ`. -/
  blk : Block
  /-- The driver's step count `n`: not state of the block, and not cleared by reset (10_state.md R23, 40_step.md R109). -/
  n : Nat
  /-- The beats the driver has yet to present, next one first (log entry 1). -/
  input : List BeatWord
  /-- The records produced so far, oldest first (log entry 2). -/
  log : List OutputRecord
  deriving DecidableEq, Repr

/-- The all-zero state of construction and of reset (10_state.md R38). -/
def Block.zero : Block where
  r := Vector.replicate 32 0
  d0 := Vector.replicate 32 0
  d1 := Vector.replicate 32 0
  s0 := 0
  s1 := 0
  s2 := 0
  s3 := 0
  hold := 0
  fActive := false
  fIndex := 0
  fId := 0
  ring := []
  wp := 0

/-- A newly constructed instance with configuration `c`: the all-zero state, step number 0, no beat presented yet
(10_state.md R38, 70_reset_and_hazards.md R261, R266). -/
def State.initial (c : Config) : State where
  cfg := c
  blk := Block.zero
  n := 0
  input := []
  log := []

/-- The machine right after reset: the state of construction (70_reset_and_hazards.md R260, R261), in the instance whose
configuration is `Config.atReset` (log entry 5). -/
def State.reset : State := State.initial Config.atReset

end Sys2Proof.Machine
end

