-- ==== Sys2Proof/Machine/Ops.lean ====
section
/-! DEFINITION. The named operations over the ring, the registers and the record log (20_memory.md, 10_state.md R25).
The block has no trap, so there is no operation that takes an exception and none that returns from one
(60_exceptions.md R240, R247, R248). -/

namespace Sys2Proof.Machine

/-- Slots strictly rising and no entry equal to 0, which an unlisted slot reads as. -/
def Memory.wf : Memory → Bool
  | [] => true
  | [(_, v)] => decide (v ≠ 0)
  | (k, v) :: (k', v') :: t => decide (v ≠ 0) && decide (k < k') && Memory.wf ((k', v') :: t)

/-- `RingRead(k)`: the value in slot `k` (00_scope.md R17). -/
def Memory.read : Memory → Nat → Int
  | [], _ => 0
  | (k', v') :: t, k => if k = k' then v' else Memory.read t k

/-- `RingWrite(k, v)`: the ring with slot `k` set to `v` and every other slot kept (00_scope.md R17, 45_raw_delay.md R202). -/
def Memory.write : Memory → Nat → Int → Memory
  | [], k, v => if v = 0 then [] else [(k, v)]
  | (k', v') :: t, k, v =>
    if k < k' then (if v = 0 then (k', v') :: t else (k, v) :: (k', v') :: t)
    else if k = k' then (if v = 0 then t else (k, v) :: t)
    else (k', v') :: Memory.write t k v

/-- `RING_LEN = DATA_DELAY + 1` (00_scope.md R9, 10_state.md R32). -/
def ringLen (c : Config) : Nat := c.dataDelay + 1

/-- A read of `r[i]`: `r[32]` is hardwired to 0 (10_state.md R24, R25). -/
def Block.rRead (b : Block) (i : Nat) : Int :=
  if h : i < 32 then b.r[i] else 0

/-- A read of `d0[i]`, i = 0..31. -/
def Block.d0Read (b : Block) (i : Nat) : Int :=
  if h : i < 32 then b.d0[i] else 0

/-- A read of `d1[i]`, i = 0..31. -/
def Block.d1Read (b : Block) (i : Nat) : Int :=
  if h : i < 32 then b.d1[i] else 0

/-- The end of every completed step: its one record goes to the log, the step number advances and the block takes its
next state; the configuration and the beats not yet presented stay (40_step.md R105, R109, 10_state.md R20). -/
def State.commit (s : State) (o : OutputRecord) (b : Block) : State :=
  { s with blk := b, n := s.n + 1, log := s.log ++ [o] }

end Sys2Proof.Machine
end

