-- ==== Sys2Proof/Machine/Operands.lean ====
section
/-! DEFINITION. What a step reads as its operands, and what makes an instance or a sample inadmissible
(00_scope.md R10, R11, 60_exceptions.md R241, 30_encoding.md R83). -/

namespace Sys2Proof.Machine

/-- `COEFF[i]` (10_state.md R21). -/
def coeffAt (c : Config) (i : Nat) : Int := c.coeff.getD i 0

/-- `Σ |COEFF[k]|`. -/
def coeffMass (l : List Int) : Nat := (l.map Int.natAbs).sum

/-- The static bound `8192 · Σ |COEFF[k]| ≤ 2^(ACC_W−1) − 1` (00_scope.md R10). A width of 0 has no sign bit and
admits nothing (log entry 6). -/
def withinBound (accW : Nat) (l : List Int) : Bool :=
  decide (1 ≤ accW) && decide (8192 * coeffMass l ≤ 2 ^ (accW - 1) - 1)

/-- The first field of what the driver hands over that breaks 00_scope.md R11, in that rule's order (log entry 7). -/
def firstIllegal (u : Setup) : Option ConfigField :=
  if u.coeff.length ≠ ntaps then some .coeffCount
  else if u.frameLen < 1 then some .frameLen
  else if u.holdoff < 0 then some .holdoff
  else if u.pretrigger < 0 then some .pretrigger
  else if u.dataDelay < 0 then some .dataDelay
  else if withinBound u.accW u.coeff then none
  else some .coeffBound

/-- A configuration seen as what was handed over. -/
def setupOf (c : Config) : Setup where
  coeff := c.coeff
  threshold := c.threshold
  holdoff := c.holdoff
  frameLen := c.frameLen
  pretrigger := c.pretrigger
  dataDelay := c.dataDelay
  xcorrNegate := c.xcorrNegate
  xcorrAbs := c.xcorrAbs
  accW := c.accW

/-- The configuration an admitted instance holds. -/
def configOf (u : Setup) : Config where
  coeff := u.coeff
  threshold := u.threshold
  holdoff := u.holdoff.toNat
  frameLen := u.frameLen.toNat
  pretrigger := u.pretrigger.toNat
  dataDelay := u.dataDelay.toNat
  xcorrNegate := u.xcorrNegate
  xcorrAbs := u.xcorrAbs
  accW := u.accW

/-- The first field of a configuration that breaks 00_scope.md R11. -/
def illegalField (c : Config) : Option ConfigField := firstIllegal (setupOf c)

/-- An admitted configuration (00_scope.md R11). -/
def legal (c : Config) : Bool := decide (illegalField c = none)

/-- Why a step is refused, if it is: the instance first, since that is checked before step 0, then the sample
(60_exceptions.md R241). -/
def refusal (s : State) (x : Int) : Option Refusal :=
  match illegalField s.cfg with
  | some f => some (.config f)
  | none => if InSampleRange x then none else some (.sample s.n x)

/-- Construction of an instance: the all-zero state, or `Refuse(CONFIG)` with the offending field
(47_external_collaborators.md R220, 60_exceptions.md R241, 70_reset_and_hazards.md R265). -/
def construct (u : Setup) : Host.Outcome State Fault Refusal :=
  match firstIllegal u with
  | some f => .refused (.config f)
  | none => .next (State.initial (configOf u))

end Sys2Proof.Machine
end

