-- ==== Sys2Proof/Machine/Fir.lean ====
section
/-! DEFINITION. The systolic FIR network (41_fir.md). -/

namespace Sys2Proof.Machine

/-- The partial sum `p_i` of tap `i`, with the bypass of a zero coefficient (41_fir.md R121, R123). -/
def tapSum (c : Config) (b : Block) (x : Int) (i : Nat) : Int :=
  if coeffAt c i = 0 then b.rRead (i + 1) else coeffAt c i * x + b.rRead (i + 1)

/-- `d0'[0..31]`: every tap reads the same pre-step state (41_fir.md R122, R124). -/
def d0Next (c : Config) (b : Block) (x : Int) : Vector Int 32 :=
  Vector.ofFn fun i : Fin 32 => tapSum c b x i.val

/-- `d1'[i] <- σ.d0[i]` (41_fir.md R122). -/
def d1Next (b : Block) : Vector Int 32 := b.d0

/-- `r'[i] <- σ.d0[i]` for i = 0..31 (41_fir.md R122; 90_conflicts.md C1 rejects the literal `old d1[i]`). -/
def rNext (b : Block) : Vector Int 32 := b.d0

end Sys2Proof.Machine
end

