-- ==== Sys2Proof/Machine/Chain.lean ====
section
/-! DEFINITION. Post-processing of a correlation value (42_xcorr_chain.md). The shift itself is in `nextRun`. -/

namespace Sys2Proof.Machine

/-- `proc(v)`: negate first, then absolute value, each only when configured (42_xcorr_chain.md R143). -/
def proc (c : Config) (v : Int) : Int :=
  let w := if c.xcorrNegate then -v else v
  if c.xcorrAbs then (w.natAbs : Int) else w

end Sys2Proof.Machine
end

