-- ==== Sys2Proof/Machine/Flags.lean ====
section
/-! DEFINITION. The status bits of a step and the counters behind them: the edge comparator, the trigger, the holdoff
counter, the frame transition and the frame trigger (43_trigger.md, 44_frame.md). No flag persists (10_state.md R35). -/

namespace Sys2Proof.Machine

/-- The comparator `edge` on `S1`, `S2`, `S3` (43_trigger.md R161). -/
def edge (c : Config) (b : Block) : Bool :=
  decide (proc c b.s1 > c.threshold) && decide (proc c b.s2 > c.threshold) && decide (proc c b.s3 ≤ c.threshold)

/-- `TriggerOut(σ) = (σ.hold = 0) ∧ edge` (43_trigger.md R162). -/
def triggerOut (c : Config) (b : Block) : Bool := decide (b.hold = 0) && edge c b

/-- `hold'` (43_trigger.md R163). -/
def holdNext (c : Config) (b : Block) (trig : Bool) : Nat :=
  if b.hold > 0 then b.hold - 1 else if trig then c.holdoff else 0

/-- `FrameNext(σ, trig)` (44_frame.md R181 to R185). -/
def frameNext (c : Config) (b : Block) (trig : Bool) : FrameOut :=
  if b.fActive = false ∧ trig = true then ⟨true, 0, b.fId + 1, true⟩
  else if b.fActive = true ∧ b.fIndex < c.frameLen - 1 then ⟨true, b.fIndex + 1, b.fId, false⟩
  else if b.fActive = true then ⟨false, 0, b.fId, false⟩
  else ⟨false, 0, b.fId, false⟩

/-- `frame_trigger`: the reported index is `PRETRIGGER` while active (44_frame.md R187). -/
def frameTrigger (c : Config) (f : FrameOut) : Bool := f.active && decide (f.index = c.pretrigger)

end Sys2Proof.Machine
end

