-- ==== Sys2Proof/Machine/RawDelay.lean ====
section
/-! DEFINITION. The raw alignment delay line (45_raw_delay.md). -/

namespace Sys2Proof.Machine

/-- `RawDelayOut(σ, x)`: the slot written `DATA_DELAY` steps ago, or the sample itself when `DATA_DELAY = 0`
(45_raw_delay.md R201). -/
def rawDelayOut (c : Config) (b : Block) (x : Int) : Int :=
  if c.dataDelay = 0 then x else Memory.read b.ring ((b.wp + 1) % ringLen c)

/-- `wp'` (45_raw_delay.md R202). -/
def wpNext (c : Config) (b : Block) : Nat := (b.wp + 1) % ringLen c

end Sys2Proof.Machine
end

