-- ==== Sys2Proof/Machine/Record.lean ====
section
/-! DEFINITION. The output record of a step (40_step.md R101) and its image on the output ports (30_encoding.md R88). -/

namespace Sys2Proof.Machine

/-- `Out(σ, x)` for step number `n`. It does not read `rst` (40_step.md R101; the spec's own choice D5, log entry 12). -/
def outRecord (c : Config) (b : Block) (n : Nat) (x : Int) : OutputRecord :=
  let trig := triggerOut c b
  let f := frameNext c b trig
  { index := n
    raw := x
    rawDelayed := rawDelayOut c b x
    xcorrRaw := b.s1
    xcorrProc := proc c b.s1
    trigger := trig
    frameStart := f.start
    frameActive := f.active
    frameIndex := f.index
    frameId := f.id
    frameTrigger := frameTrigger c f }

/-- The output ports of one step; `index` is driver-side and no port. The widths `ACC_W`, `FIDX_W` and `FRAME_ID_W` are
OPEN parameters (30_encoding.md R88). -/
structure Ports (accW fidxW frameIdW : Nat) where
  raw : BitVec 14
  rawDelayed : BitVec 14
  xcorrRaw : BitVec accW
  xcorrProc : BitVec accW
  trigger : BitVec 1
  frameStart : BitVec 1
  frameActive : BitVec 1
  frameIndex : BitVec fidxW
  frameId : BitVec frameIdW
  frameTrigger : BitVec 1
  deriving DecidableEq, Repr

/-- A frame id on a port of `FRAME_ID_W` bits: the id itself where the width holds it (30_encoding.md R88).
DESIGN CHOICE (log entry 26), safe: past `2^FRAME_ID_W − 1` the port holds a free value, since the spec leaves that open
(92_eei_decisions.md D10, 93_implementation_defined.md I7). -/
def frameIdPort (frameIdW id : Nat) : BitVec frameIdW :=
  if id < 2 ^ frameIdW then BitVec.ofNat frameIdW id else frameIdPastWidth frameIdW id

/-- The record on the ports: two's complement, 1 for true, unsigned (30_encoding.md R88). The frame id is `frameIdPort`'s;
the other widths hold every value of an admitted instance (00_scope.md R9, R10). -/
def OutputRecord.ports (accW fidxW frameIdW : Nat) (o : OutputRecord) : Ports accW fidxW frameIdW where
  raw := BitVec.ofInt 14 o.raw
  rawDelayed := BitVec.ofInt 14 o.rawDelayed
  xcorrRaw := BitVec.ofInt accW o.xcorrRaw
  xcorrProc := BitVec.ofInt accW o.xcorrProc
  trigger := BitVec.ofBool o.trigger
  frameStart := BitVec.ofBool o.frameStart
  frameActive := BitVec.ofBool o.frameActive
  frameIndex := BitVec.ofNat fidxW o.frameIndex
  frameId := frameIdPort frameIdW o.frameId
  frameTrigger := BitVec.ofBool o.frameTrigger

end Sys2Proof.Machine
end

