-- ==== Sys2Proof/Machine/Beat.lean ====
section
/-! DEFINITION. The meanings of the two beat kinds (40_step.md R102, R103). -/

namespace Sys2Proof.Machine

/-- `NextRun(σ, x)`: the next state of an ordinary step. Every right-hand side reads `σ`
(40_step.md R102, 70_reset_and_hazards.md R272). -/
def nextRun (c : Config) (b : Block) (x : Int) : Block :=
  let trig := triggerOut c b
  let f := frameNext c b trig
  { r := rNext b
    d0 := d0Next c b x
    d1 := d1Next b
    s0 := b.rRead 0
    s1 := b.s0
    s2 := b.s1
    s3 := b.s2
    hold := holdNext c b trig
    fActive := f.active
    fIndex := f.index
    fId := f.id
    ring := Memory.write b.ring b.wp x
    wp := wpNext c b }

/-- `STEP s` (40_step.md R102). -/
def execStep (x : Int) (s : State) : Host.Outcome State Fault Refusal :=
  match refusal s x with
  | some why => .refused why
  | none => .next (s.commit (outRecord s.cfg s.blk s.n x) (nextRun s.cfg s.blk x))

/-- `RESET s`: the record of the pre-reset state, then every register cleared (40_step.md R103). -/
def execReset (x : Int) (s : State) : Host.Outcome State Fault Refusal :=
  match refusal s x with
  | some why => .refused why
  | none => .next (s.commit (outRecord s.cfg s.blk s.n x) Block.zero)

end Sys2Proof.Machine
end

