-- ==== Sys2Proof/Syntax.lean ====
section
/-! DEFINITION. The two beat kinds, the block's whole opcode map (30_encoding.md R80, R84). -/

namespace Sys2Proof

/-- One input beat, the pair (`x`, `rst`) of 30_encoding.md R80: the kind is the reset flag and the operand is
the conditioned sample, an integer (00_scope.md R12). -/
inductive Instr where
  /-- `STEP s`: an ordinary step, `rst = 0` (40_step.md R102). -/
  | step (x : Int)
  /-- `RESET s`: a reset step, `rst = 1` (40_step.md R103). -/
  | reset (x : Int)
  deriving DecidableEq, Repr

/-- The sample `x` the beat presents. -/
def Instr.sample : Instr → Int
  | .step x => x
  | .reset x => x

/-- The reset flag `rst` of the beat. -/
def Instr.isReset : Instr → Bool
  | .step _ => false
  | .reset _ => true

@[simp] theorem Instr.sample_step (x : Int) : (Instr.step x).sample = x := rfl
@[simp] theorem Instr.sample_reset (x : Int) : (Instr.reset x).sample = x := rfl
@[simp] theorem Instr.isReset_step (x : Int) : (Instr.step x).isReset = false := rfl
@[simp] theorem Instr.isReset_reset (x : Int) : (Instr.reset x).isReset = true := rfl

end Sys2Proof
end

