-- ==== Sys2Proof/Machine/Dispatch.lean ====
section
/-! DEFINITION. One arm per beat kind (30_encoding.md R84). -/

namespace Sys2Proof.Machine

def exec (i : Instr) (s : State) : Host.Outcome State Fault Refusal :=
  match i with
  | .step x => Sys2Proof.Machine.execStep x s
  | .reset x => Sys2Proof.Machine.execReset x s

end Sys2Proof.Machine
end

