-- ==== Sys2Proof/WellFormed.lean ====
section
/-! DEFINITION. Which beats the block is ever given (30_encoding.md R80, R83). -/

namespace Sys2Proof

/-- A beat is well formed when its sample lies in [−8192, 8191] (30_encoding.md R80). -/
def Instr.wf (i : Instr) : Bool :=
  match i with
  | .step x => decide (InSampleRange x)
  | .reset x => decide (InSampleRange x)

theorem Instr.wf_iff (i : Instr) : i.wf = true ↔ InSampleRange i.sample := by
  cases i <;> simp [Instr.wf]

end Sys2Proof
end

