-- ==== Sys2Proof/Decode.lean ====
section
/-! DEFINITION. Decoding a beat word, rejecting by name what is no beat word, and the encoder
(30_encoding.md R81, R82, R84 to R86). -/

namespace Sys2Proof

/-- `sext_N(v) = v − 2^N` if bit N−1 of v is 1, else `v` (00_scope.md R14), for N = 14. -/
def sext14 (v : SampleField) : Int :=
  if v.getLsbD 13 then (v.toNat : Int) - 2 ^ 14 else (v.toNat : Int)

/-- The operand field `B[13:0]` (30_encoding.md R81). -/
def sampleField (w : BeatWord) : SampleField := w.extractLsb' 0 14

/-- `rst = B[14]` selects the kind and `x = sext_14(B[13:0])` is the operand (30_encoding.md R82, R84).
Total: every one of the 2^15 words is a beat (R85). -/
def decode (w : BeatWord) : Instr :=
  if w.getLsbD 14 then .reset (sext14 (sampleField w)) else .step (sext14 (sampleField w))

/-- Why a number is no beat word. The block has no such case (30_encoding.md R85, R86): it concerns only a
wider container the word is handed over in. -/
inductive DecodeError where
  /-- A bit above `B[14]` is set. -/
  | notABeatWord (bits : Nat)
  deriving DecidableEq, Repr

/-- The beat word a number stands for, refused by name when it has a bit above `B[14]`. -/
def beatOfNat (v : Nat) : Except DecodeError BeatWord :=
  if v < 2 ^ 15 then .ok (BitVec.ofNat 15 v) else .error (.notABeatWord v)

/-- Decoding of any number: the beat, or the name of the reason there is none. -/
def decodeNat (v : Nat) : Except DecodeError Instr :=
  match beatOfNat v with
  | .ok w => .ok (decode w)
  | .error e => .error e

/-- The beat word laid out from a table word: bit 0 is the least significant bit and every bit from `nbits` up is 0. -/
def tableBeat (nbits w : Nat) : Option BeatWord :=
  match beatOfNat (w % 2 ^ nbits) with
  | .ok b => some b
  | .error _ => none

/-- The instruction the decoder reads from a word of spec/opcode_table.json. -/
def decodeTableWord (nbits w : Nat) : Option Instr :=
  (tableBeat nbits w).map decode

/-- The beat word `{rst, s}`, the reset flag in the high bit (30_encoding.md R81, 00_scope.md R14). -/
def beatWord (rst : BitVec 1) (s : SampleField) : BeatWord := rst ++ s

/-- The word of a beat, `s` the 14-bit two's complement of the sample (30_encoding.md R81, R84).
Written from the format table, not from `decode`. -/
def encode (i : Instr) : BeatWord :=
  match i with
  | .step x => beatWord 0#1 (BitVec.ofInt 14 x)
  | .reset x => beatWord 1#1 (BitVec.ofInt 14 x)

end Sys2Proof
end

