-- ==== Sys2Proof/Machine/Fetch.lean ====
section
/-! DEFINITION. Taking the next beat from the driver. The block fetches nothing and has no program counter
(10_state.md R23): the driver presents one beat a step, in strict sequence (30_encoding.md R80). -/

namespace Sys2Proof.Machine

/-- The next beat word and the state with it taken, or nothing when the driver has presented no further beat. -/
def takeBeat (s : State) : Option (BeatWord × State) :=
  match s.input with
  | [] => none
  | w :: rest => some (w, { s with input := rest })

/-- `w` presented as the driver's next beat, before those that wait. -/
def presentBeat (s : State) (w : BeatWord) : State := { s with input := w :: s.input }

/-- The table word as the driver's next beat; a number that is no beat word leaves nothing to take (log entry 1). -/
def presentTableWord (s : State) (nbits w : Nat) : State :=
  match tableBeat nbits w with
  | some b => presentBeat s b
  | none => { s with input := [] }

end Sys2Proof.Machine
end

