-- ==== Sys2Proof/Machine/Step.lean ====
section
/-! DEFINITION. One step of the machine: take the driver's next beat, decode it, execute it (40_step.md R100). -/

namespace Sys2Proof.Machine

/-- One clock cycle of the block (00_scope.md R2). Without a beat there is no step: the run has ended
(60_exceptions.md R255). -/
def step (s : State) : Host.Outcome State Fault Refusal :=
  match takeBeat s with
  | none => .fault .endOfInput
  | some (w, s') => exec (decode w) s'

/-- `s` with the table word as the beat its next step takes. -/
def State.withFetchWord (s : State) (nbits w : Nat) : State := presentTableWord s nbits w

/-- `k` steps, stopping at the first fault or refusal. -/
def steps : Nat → State → Host.Outcome State Fault Refusal
  | 0, s => .next s
  | k + 1, s =>
    match step s with
    | .next t => steps k t
    | .fault why => .fault why
    | .refused why => .refused why

end Sys2Proof.Machine
end

