-- ==== Sys2Proof/Machine/Stream.lean ====
section
/-! DEFINITION. The notation for beat streams, its pseudo-beats and the reset prefix (30_encoding.md R90, R91). -/

namespace Sys2Proof.Machine

/-- One line of a beat stream: a beat with its count, a pseudo-beat, or nothing (a comment or a blank line). -/
inductive StreamLine where
  | beats (i : Instr) (count : Nat)
  | idle (n : Nat)
  | holdReset (n : Nat) (v : Int)
  | nothing
  deriving DecidableEq, Repr

/-- The beats a line stands for: `IDLE n` is `STEP 0 x n`, `HOLDRESET n, v` is `RESET v x n` (30_encoding.md R90, R91).
With `n = 0` it is no beats (log entry 25). -/
def StreamLine.expand : StreamLine → List Instr
  | .beats i count => List.replicate count i
  | .idle n => List.replicate n (.step 0)
  | .holdReset n v => List.replicate n (.reset v)
  | .nothing => []

/-- `reset_samples = N` over the samples `v0, v1, …`: the first N beats carry `rst = 1` (30_encoding.md R91). -/
def resetPrefix : Nat → List Int → List Instr
  | _, [] => []
  | 0, v :: vs => .step v :: resetPrefix 0 vs
  | n + 1, v :: vs => .reset v :: resetPrefix n vs

/-- A line up to its comment. -/
def dropComment : List Char → List Char
  | [] => []
  | c :: cs => if c = '#' then [] else c :: dropComment cs

/-- The words of a line: separated by blanks, a comma a word of its own. `cur` is the word being read, last character
first. -/
def tokens (cur : List Char) : List Char → List (List Char)
  | [] => if cur.isEmpty then [] else [cur.reverse]
  | c :: cs =>
    let done := if cur.isEmpty then [] else [cur.reverse]
    if c = ' ' ∨ c = '\t' then done ++ tokens [] cs
    else if c = ',' then done ++ [[',']] ++ tokens [] cs
    else tokens (c :: cur) cs

/-- A decimal numeral with `acc` read so far. -/
def decimalFrom (acc : Nat) : List Char → Option Nat
  | [] => some acc
  | c :: cs =>
    if 48 ≤ c.toNat ∧ c.toNat ≤ 57 then decimalFrom (10 * acc + (c.toNat - 48)) cs else none

/-- `decimal`: at least one digit. -/
def decimal (cs : List Char) : Option Nat := if cs.isEmpty then none else decimalFrom 0 cs

/-- `["-"] decimal`. -/
def signedDecimal : List Char → Option Int
  | '-' :: ds => (decimal ds).map fun d => -(d : Int)
  | ds => (decimal ds).map fun d => (d : Int)

/-- `sample ::= ["-"] decimal`, a value in [−8192, 8191] (30_encoding.md R90). -/
def sampleNumeral (cs : List Char) : Option Int :=
  (signedDecimal cs).bind fun x => if InSampleRange x then some x else none

/-- `count ::= decimal`, at least 1 (30_encoding.md R90). -/
def countNumeral (cs : List Char) : Option Nat :=
  (decimal cs).bind fun d => if 1 ≤ d then some d else none

/-- `"STEP" sample` or `"RESET" sample` (30_encoding.md R90). -/
def beatOfWords (kind v : List Char) : Option Instr :=
  if kind = ['S', 'T', 'E', 'P'] then (sampleNumeral v).map Instr.step
  else if kind = ['R', 'E', 'S', 'E', 'T'] then (sampleNumeral v).map Instr.reset
  else none

/-- One line of the notation, or none when the text is no line of it (30_encoding.md R90, R91).
DESIGN CHOICE (log entry 25), safe: the `n` of a pseudo-beat may be 0, for R91 gives it no range, while the count after `x`
is at least 1, as R90 says. -/
def parseLine (line : List Char) : Option StreamLine :=
  match tokens [] (dropComment line) with
  | [] => some .nothing
  | [k, v] =>
    if k = ['I', 'D', 'L', 'E'] then (decimal v).map StreamLine.idle
    else (beatOfWords k v).map fun i => .beats i 1
  | [k, v, ['x'], m] => (beatOfWords k v).bind fun i => (countNumeral m).map fun n => .beats i n
  | [k, n, [','], v] =>
    if k = ['H', 'O', 'L', 'D', 'R', 'E', 'S', 'E', 'T'] then
      (decimal n).bind fun m => (sampleNumeral v).map fun x => .holdReset m x
    else none
  | _ => none

/-- A stream's lines as beat words, or none when a line is no line of the notation. -/
def assemble : List (List Char) → Option (List BeatWord)
  | [] => some []
  | l :: ls => (parseLine l).bind fun p => (assemble ls).map fun ws => p.expand.map encode ++ ws

end Sys2Proof.Machine
end

