-- ==== Sys2Proof/Machine/Driver.lean ====
section
/-! DEFINITION. The driver's side of a run, as far as the spec settles it (47_external_collaborators.md). It is outside
the block (00_scope.md R5); it is here so that a run can be started the way the reference tool starts one. -/

namespace Sys2Proof.Machine

/-- The recognised options (47_external_collaborators.md R227). `template` is the template file's values in file order, if one is
given (R225); `inputBin16` is `input_bin16`, which selects the binary decoder; `bin16Signed` is no option of the tool but the
OPEN parameter `BIN16_SIGNED` (R224). -/
structure Options where
  template : Option (List Int)
  threshold : Int
  holdoff : Int
  xcorrNegate : Bool
  xcorrAbs : Bool
  frameLen : Int := 1024
  pretrigger : Int := 64
  dataDelay : Int := 256
  accW : Nat := 64
  unsigned14 : Bool
  noCenter : Bool
  inputBin16 : Bool
  baselineSub : Option Int
  autoBaseline : Bool
  bin16Signed : Bool
  resetSamples : Nat
  deriving DecidableEq, Repr

/-- `clamp(v, lo, hi) = min(max(v, lo), hi)` (00_scope.md R12). -/
def clamp (v lo hi : Int) : Int := min (max v lo) hi

/-- `Cond1(v)` (47_external_collaborators.md R222). -/
def cond1 (o : Options) (v : Int) : Int :=
  if o.unsigned14 then
    (if o.noCenter then clamp v 0 16383 else clamp v 0 16383 - 8192)
  else clamp v (-8192) 8191

/-- The baseline `B`: auto overrides explicit, and the mean is truncated toward zero (47_external_collaborators.md R222). -/
def baseline (o : Options) (vs : List Int) : Int :=
  if o.autoBaseline then ((vs.map (cond1 o)).sum).tdiv vs.length
  else o.baselineSub.getD 0

/-- The conditioned samples of one run (47_external_collaborators.md R222). -/
def condition (o : Options) (vs : List Int) : List Int :=
  vs.map fun v => clamp (cond1 o v - baseline o vs) (-8192) 8191

/-- The values of a binary waveform: 16-bit little-endian words, a partial trailing word discarded
(47_external_collaborators.md R224). -/
def bin16 (o : Options) : List (BitVec 8) → List Int
  | lo :: hi :: rest =>
    let w : BitVec 16 := hi ++ lo
    (if o.bin16Signed then w.toInt else (w.toNat : Int)) :: bin16 o rest
  | _ => []

/-- The value a line of a text waveform gives, if any: blank lines and lines starting with `#` are skipped, and an
optionally signed decimal integer is its value (47_external_collaborators.md R223, 92_eei_decisions.md D25 (d)). What any
other line gives is a free value (log entry 27). -/
def textLine : List Char → Option Int
  | [] => none
  | '#' :: _ => none
  | line =>
    match signedDecimal line with
    | some v => some v
    | none => otherTextLine line

/-- The lines of a text file, each ended by a line feed or by the end of the file (log entry 27). `cur` is the line being
read, last character first. -/
def textLines (cur : List Char) : List (BitVec 8) → List (List Char)
  | [] => [cur.reverse]
  | b :: bs => if b = 10#8 then cur.reverse :: textLines [] bs else textLines (Char.ofNat b.toNat :: cur) bs

/-- The values of a text waveform, one a line (47_external_collaborators.md R223). -/
def textValues (file : List (BitVec 8)) : List Int := (textLines [] file).filterMap textLine

/-- The input values of a run, read by the decoder that `input_bin16` selects (47_external_collaborators.md R223, R224, R227). -/
def inputValues (o : Options) (file : List (BitVec 8)) : List Int :=
  if o.inputBin16 then bin16 o file else textValues file

/-- What the driver hands over at construction: without a template file, the built-in set
(47_external_collaborators.md R225 to R227). -/
def Options.setup (o : Options) : Setup where
  coeff := o.template.getD builtinCoeff.toList
  threshold := o.threshold
  holdoff := o.holdoff
  frameLen := o.frameLen
  pretrigger := o.pretrigger
  dataDelay := o.dataDelay
  xcorrNegate := o.xcorrNegate
  xcorrAbs := o.xcorrAbs
  accW := o.accW

/-- Boot from a waveform file: validate the configuration, read and condition the whole input, construct the instance, and have the beats ready with
the leading `reset_samples` of them carrying `rst = 1` (70_reset_and_hazards.md R265, 47_external_collaborators.md R228). -/
def boot (o : Options) (file : List (BitVec 8)) : Host.Outcome State Fault Refusal :=
  match construct o.setup with
  | .next s => .next { s with input := (resetPrefix o.resetSamples (condition o (inputValues o file))).map encode }
  | .fault why => .fault why
  | .refused why => .refused why

end Sys2Proof.Machine
end

