-- ==== Sys2Proof/Safety.lean ====
section
/-! DEFINITION. What the statements are phrased in: the invariant of an instance, its run over a stream of beats, and the
epoch-masked sample of 00_scope.md R16. -/

namespace Sys2Proof.Machine

/-- `Σ_{k=i}^{31} |COEFF[k]|` (41_fir.md R126). -/
def massFrom (c : Config) (i : Nat) : Int := ∑ k ∈ Finset.Ico i 32, |coeffAt c k|

/-- What holds of an instance between steps. -/
structure Inv (s : State) : Prop where
  /-- The instance is admitted (00_scope.md R11). -/
  admitted : legal s.cfg = true
  /-- `r[i] = d1[i]` for i = 0..31 (10_state.md R27). -/
  sharedStage : s.blk.r = s.blk.d1
  /-- Tap registers stay within the mass of their taps (41_fir.md R126). -/
  tapRange : ∀ i < 32, |s.blk.d0Read i| ≤ 8192 * massFrom s.cfg i ∧ |s.blk.d1Read i| ≤ 8192 * massFrom s.cfg i
  /-- Chain registers stay within the mass of all taps. -/
  chainRange : |s.blk.s0| ≤ 8192 * massFrom s.cfg 0 ∧ |s.blk.s1| ≤ 8192 * massFrom s.cfg 0 ∧
    |s.blk.s2| ≤ 8192 * massFrom s.cfg 0 ∧ |s.blk.s3| ≤ 8192 * massFrom s.cfg 0
  /-- `hold` is in 0..`HOLDOFF` (10_state.md R29). -/
  holdRange : s.blk.hold ≤ s.cfg.holdoff
  /-- `0 ≤ index < frame_len` while active (10_state.md R31). -/
  frameActive : s.blk.fActive = true → s.blk.fIndex < s.cfg.frameLen
  /-- `f_index = 0` while inactive (10_state.md R31). -/
  frameIdle : s.blk.fActive = false → s.blk.fIndex = 0
  /-- `wp` is a slot of the ring (10_state.md R34). -/
  wpRange : s.blk.wp < ringLen s.cfg
  /-- The ring is in its canonical form. -/
  ringWf : Memory.wf s.blk.ring = true
  /-- No slot outside 0..`DATA_DELAY` holds anything (20_memory.md R66, R67). -/
  ringSlots : ∀ k, ringLen s.cfg ≤ k → Memory.read s.blk.ring k = 0
  /-- Every slot holds a sample (10_state.md R32). -/
  ringSamples : ∀ k, InSampleRange (Memory.read s.blk.ring k)
  /-- One record for every step taken (40_step.md R105). -/
  logLength : s.log.length = s.n

/-- The block after beat `i`: `NextRun(σ, x)` or the all-zero state (40_step.md R100). -/
def blockAfter (c : Config) (b : Block) (i : Instr) : Block :=
  match i with
  | .step x => nextRun c b x
  | .reset _ => Block.zero

/-- A newly constructed instance of configuration `c` whose driver presents the beats `bs`. -/
def started (c : Config) (bs : List BeatWord) : State := { State.initial c with input := bs }

/-- `x(j)`, the sample of beat `j` of a stream (00_scope.md R16). -/
def sampleOf (bs : List BeatWord) (j : Nat) : Int := (decode (bs.getD j 0)).sample

/-- `rst(j)`, the reset flag of beat `j` of a stream (00_scope.md R16). -/
def resetOf (bs : List BeatWord) (j : Nat) : Bool := (decode (bs.getD j 0)).isReset

/-- The epoch `t0(n)`: one more than the greatest m < n with `rst(m) = 1`, or 0 (00_scope.md R16). -/
def epochStart (bs : List BeatWord) : Nat → Nat
  | 0 => 0
  | n + 1 => if resetOf bs n then n + 1 else epochStart bs n

/-- The epoch-masked sample `x̂_n(j)`; `j` may lie before step 0 (00_scope.md R16). -/
def masked (bs : List BeatWord) (n : Nat) (j : Int) : Int :=
  if (epochStart bs n : Int) ≤ j ∧ j < n ∧ resetOf bs j.toNat = false then sampleOf bs j.toNat else 0

/-- `Σ_{k=0}^{31} COEFF[k] · x̂_n(m − 2k − 4)` (42_xcorr_chain.md R145, 43_trigger.md R166). -/
def correlation (c : Config) (bs : List BeatWord) (n : Nat) (m : Int) : Int :=
  ∑ k ∈ Finset.range 32, coeffAt c k * masked bs n (m - 2 * k - 4)

/-- A record without its driver-side step number (70_reset_and_hazards.md R264). -/
def withoutIndex (o : OutputRecord) : OutputRecord := { o with index := 0 }

/-- A record without `raw_delayed` (45_raw_delay.md R204). -/
def withoutDelayed (o : OutputRecord) : OutputRecord := { o with rawDelayed := 0 }

end Sys2Proof.Machine
end

