-- ==== Sys2Proof/Certificates/Slice0/Obligations.lean ====
section
/-! DEFINITION. The statements for the provers. A docstring names the rule of the spec a statement formalises; where the
rule is marked there as the spec's own inference or decision, the docstring says so and the statement's basis is derived. -/

open Sys2Proof Sys2Proof.Machine

/-! ### Encoding -/

/-- Every well-formed beat is read back from its word, and every word is the word of the one well-formed beat it decodes
to. The word layout is the spec's own decision (30_encoding.md R81 to R86, 92_eei_decisions.md D17). -/
def Obligations.DecodeEncodeRoundTrip : Prop :=
  (∀ i : Instr, i.wf = true → decode (encode i) = i) ∧
  ∀ w : BeatWord, (decode w).wf = true ∧ encode (decode w) = w

/-- `rst = B[14]` and `x = sext_14(B[13:0])`, said by arithmetic on the word's value (30_encoding.md R82, decision D17). -/
def Obligations.DecodeReadsBeatFields : Prop :=
  ∀ w : BeatWord, (decode w).isReset = w.getLsbD 14 ∧
    (decode w).sample =
      if 2 ^ 13 ≤ w.toNat % 2 ^ 14 then ((w.toNat % 2 ^ 14 : Nat) : Int) - 2 ^ 14 else ((w.toNat % 2 ^ 14 : Nat) : Int)

/-- The nine encoding examples of 30_encoding.md R87, which that rule marks as derived. -/
def Obligations.EncodingExamplesDecode : Prop :=
  decode 0x0000#15 = .step 0 ∧ decode 0x000A#15 = .step 10 ∧ decode 0x3FFC#15 = .step (-4) ∧
  decode 0x1FFF#15 = .step 8191 ∧ decode 0x2000#15 = .step (-8192) ∧ decode 0x3FFF#15 = .step (-1) ∧
  decode 0x4000#15 = .reset 0 ∧ decode 0x4007#15 = .reset 7 ∧ decode 0x7FFF#15 = .reset (-1)

/-- A number is read as a beat exactly when it has no bit above `B[14]`. The container is the model's choice (log
entry 9); the 15-bit word is 30_encoding.md R81. -/
def Obligations.OnlyBeatWordsDecode : Prop :=
  ∀ nbits v : Nat, decodeTableWord nbits v =
    if v % 2 ^ nbits < 2 ^ 15 then some (decode (BitVec.ofNat 15 (v % 2 ^ nbits))) else none

/-! ### The step and its stops -/

/-- A step takes the driver's next beat and executes the beat it decodes to. The list of waiting beats is the model's
(log entry 1); one beat a step, in sequence, is 30_encoding.md R80 (decision D20). -/
def Obligations.StepExecutesDecodedBeat : Prop :=
  ∀ (s : State) (w : BeatWord) (ws : List BeatWord), s.input = w :: ws →
    step s = exec (decode w) { s with input := ws }

/-- A step faults exactly when no beat is left (the model's choice, log entry 3), and is refused exactly when a beat is
there and the instance is illegal: a beat word never meets `Refuse(SAMPLE)` (60_exceptions.md R241, decision D15). -/
def Obligations.StepStopsExactlyHere : Prop :=
  ∀ s : State,
    (∀ f, step s = .fault f ↔ s.input = [] ∧ f = .endOfInput) ∧
    ∀ why, step s = .refused why ↔
      s.input ≠ [] ∧ ∃ field, illegalField s.cfg = some field ∧ why = .config field

/-- Construction admits exactly the configurations of 00_scope.md R11 with the bound of R10 (decision D3), gives the
all-zero state with the configuration handed over, and refuses every other with a named field (decision D15). -/
def Obligations.ConstructionAdmitsLegalSetups : Prop :=
  ∀ u : Setup,
    let ok := u.coeff.length = 32 ∧ 1 ≤ u.frameLen ∧ 0 ≤ u.holdoff ∧ 0 ≤ u.pretrigger ∧ 0 ≤ u.dataDelay ∧
      1 ≤ u.accW ∧ 8192 * ∑ k ∈ Finset.range 32, |u.coeff.getD k 0| ≤ 2 ^ (u.accW - 1) - 1
    (ok → ∃ c : Config, construct u = .next (State.initial c) ∧ legal c = true ∧ c.coeff = u.coeff ∧
      c.threshold = u.threshold ∧ (c.holdoff : Int) = u.holdoff ∧ (c.frameLen : Int) = u.frameLen ∧
      (c.pretrigger : Int) = u.pretrigger ∧ (c.dataDelay : Int) = u.dataDelay ∧
      c.xcorrNegate = u.xcorrNegate ∧ c.xcorrAbs = u.xcorrAbs ∧ c.accW = u.accW) ∧
    (¬ ok → ∃ f, construct u = .refused (.config f))

/-- A sample outside [−8192, 8191] is refused with the step number and the value, on either beat kind: never clamped,
wrapped or accepted (30_encoding.md R83, decision D15). -/
def Obligations.OutOfRangeSampleRefused : Prop :=
  ∀ (s : State) (x : Int), legal s.cfg = true → ¬ InSampleRange x →
    exec (.step x) s = .refused (.sample s.n x) ∧ exec (.reset x) s = .refused (.sample s.n x)

/-- An instance with an illegal configuration takes no step (60_exceptions.md R241, decision D15). -/
def Obligations.IllegalInstanceTakesNoStep : Prop :=
  ∀ (i : Instr) (s : State) (f : ConfigField), illegalField s.cfg = some f → exec i s = .refused (.config f)

/-- 40_step.md R105 and 60_exceptions.md R240: every beat of an admitted instance on an admitted input ends normally with
exactly one record, reset or not, and no beat ever faults. -/
def Obligations.EveryBeatGivesOneRecord : Prop :=
  (∀ (i : Instr) (s : State), legal s.cfg = true → i.wf = true →
    ∃ t o, exec i s = .next t ∧ t.log = s.log ++ [o]) ∧
  ∀ (i : Instr) (s : State) (f : Fault), exec i s ≠ .fault f

/-- What a completed beat leaves alone and what it does on the driver's side: the configuration and the waiting beats
stay, the earlier records stay, and the new one carries the step number and the sample. The meaning of `index` and
`raw` is the spec's own decision (40_step.md R109, D6), and so is the fixed configuration (10_state.md R20, D12). -/
def Obligations.BeatKeepsConfigAndPassesThrough : Prop :=
  ∀ (i : Instr) (s : State), legal s.cfg = true → i.wf = true →
    ∃ t o, exec i s = .next t ∧ t.cfg = s.cfg ∧ t.input = s.input ∧ t.n = s.n + 1 ∧
      t.log = s.log ++ [o] ∧ o.index = s.n ∧ o.raw = i.sample

/-! ### The sub-blocks in one step -/

/-- 41_fir.md R121, R122 and 10_state.md R25: every tap register after an ordinary step, all from the pre-step state;
`r[32]` reads 0 before and after; a reset step leaves all three arrays 0. -/
def Obligations.TapRegistersUpdate : Prop :=
  ∀ (s : State) (x : Int), legal s.cfg = true → InSampleRange x →
    (∃ t, exec (.step x) s = .next t ∧ s.blk.rRead 32 = 0 ∧ t.blk.rRead 32 = 0 ∧
      ∀ i < 32,
        t.blk.d0Read i =
          (if coeffAt s.cfg i = 0 then s.blk.rRead (i + 1) else coeffAt s.cfg i * x + s.blk.rRead (i + 1)) ∧
        t.blk.d1Read i = s.blk.d0Read i ∧ t.blk.rRead i = s.blk.d0Read i) ∧
    ∃ t, exec (.reset x) s = .next t ∧ t.blk.rRead 32 = 0 ∧
      ∀ i < 32, t.blk.d0Read i = 0 ∧ t.blk.d1Read i = 0 ∧ t.blk.rRead i = 0

/-- A zero coefficient's bypass changes no number: every tap stores `COEFF[i]·x + r[i+1]` (41_fir.md R123, which the spec
marks as derived). -/
def Obligations.ZeroCoefficientBypassIsExact : Prop :=
  ∀ (s : State) (x : Int), legal s.cfg = true → InSampleRange x →
    ∃ t, exec (.step x) s = .next t ∧
      ∀ i < 32, t.blk.d0Read i = coeffAt s.cfg i * x + s.blk.rRead (i + 1)

/-- 42_xcorr_chain.md R141: the chain shifts from pre-step values on every ordinary step, whatever the detector's state,
and is cleared by a reset step. -/
def Obligations.ChainShiftsFromPreStepValues : Prop :=
  ∀ (s : State) (x : Int), legal s.cfg = true → InSampleRange x →
    (∃ t, exec (.step x) s = .next t ∧
      t.blk.s0 = s.blk.rRead 0 ∧ t.blk.s1 = s.blk.s0 ∧ t.blk.s2 = s.blk.s1 ∧ t.blk.s3 = s.blk.s2) ∧
    ∃ t, exec (.reset x) s = .next t ∧
      t.blk.s0 = 0 ∧ t.blk.s1 = 0 ∧ t.blk.s2 = 0 ∧ t.blk.s3 = 0

/-- 42_xcorr_chain.md R143, R144, R146: `proc` under its four settings, and the two reported correlation values, taken
from the pre-update `S1` on either beat kind. -/
def Obligations.PostProcessingReported : Prop :=
  ∀ (i : Instr) (s : State), legal s.cfg = true → i.wf = true →
    ∃ t o, exec i s = .next t ∧ t.log = s.log ++ [o] ∧ o.xcorrRaw = s.blk.s1 ∧
      o.xcorrProc = proc s.cfg s.blk.s1 ∧
      ∀ v : Int,
        (s.cfg.xcorrNegate = false → s.cfg.xcorrAbs = false → proc s.cfg v = v) ∧
        (s.cfg.xcorrNegate = true → s.cfg.xcorrAbs = false → proc s.cfg v = -v) ∧
        (s.cfg.xcorrNegate = false → s.cfg.xcorrAbs = true → proc s.cfg v = |v|) ∧
        (s.cfg.xcorrNegate = true → s.cfg.xcorrAbs = true → proc s.cfg v = |-v|)

/-- 43_trigger.md R161 in the record of an ordinary step: strictly above the threshold at `S1` and `S2`, at or below it at
`S3`, and the detector armed. -/
def Obligations.TriggerIsArmedEdge : Prop :=
  ∀ (s : State) (x : Int), legal s.cfg = true → InSampleRange x →
    ∃ t o, exec (.step x) s = .next t ∧ t.log = s.log ++ [o] ∧
      (o.trigger = true ↔ s.blk.hold = 0 ∧ s.cfg.threshold < proc s.cfg s.blk.s1 ∧
        s.cfg.threshold < proc s.cfg s.blk.s2 ∧ proc s.cfg s.blk.s3 ≤ s.cfg.threshold)

/-- 43_trigger.md R163: the dead-time counter after an ordinary step and after a reset step. -/
def Obligations.HoldoffCounterUpdate : Prop :=
  ∀ (s : State) (x : Int), legal s.cfg = true → InSampleRange x →
    (∃ t o, exec (.step x) s = .next t ∧ t.log = s.log ++ [o] ∧
      t.blk.hold =
        if 0 < s.blk.hold then s.blk.hold - 1 else if o.trigger = true then s.cfg.holdoff else 0) ∧
    ∃ t, exec (.reset x) s = .next t ∧ t.blk.hold = 0

/-- 44_frame.md R181: the frame registers and `frame_start` of an ordinary step in each case of `FrameNext`, and the
cleared registers of a reset step. -/
def Obligations.FrameTransition : Prop :=
  ∀ (s : State) (x : Int), legal s.cfg = true → InSampleRange x →
    (∃ t o, exec (.step x) s = .next t ∧ t.log = s.log ++ [o] ∧
      (s.blk.fActive = false → o.trigger = true →
        t.blk.fActive = true ∧ t.blk.fIndex = 0 ∧ t.blk.fId = s.blk.fId + 1 ∧ o.frameStart = true) ∧
      (s.blk.fActive = true → s.blk.fIndex < s.cfg.frameLen - 1 →
        t.blk.fActive = true ∧ t.blk.fIndex = s.blk.fIndex + 1 ∧ t.blk.fId = s.blk.fId ∧ o.frameStart = false) ∧
      (s.blk.fActive = true → s.cfg.frameLen - 1 ≤ s.blk.fIndex →
        t.blk.fActive = false ∧ t.blk.fIndex = 0 ∧ t.blk.fId = s.blk.fId ∧ o.frameStart = false) ∧
      (s.blk.fActive = false → o.trigger = false →
        t.blk.fActive = false ∧ t.blk.fIndex = 0 ∧ t.blk.fId = s.blk.fId ∧ o.frameStart = false)) ∧
    ∃ t, exec (.reset x) s = .next t ∧ t.blk.fActive = false ∧ t.blk.fIndex = 0 ∧ t.blk.fId = 0

/-- The reported frame fields are the frame state after the step's transition, and `frame_trigger` marks the reported
index `PRETRIGGER` while active (44_frame.md R186, R187; decision D22). -/
def Obligations.FrameFieldsReportedAfterTransition : Prop :=
  ∀ (s : State) (x : Int), legal s.cfg = true → InSampleRange x →
    ∃ t o, exec (.step x) s = .next t ∧ t.log = s.log ++ [o] ∧
      o.frameActive = t.blk.fActive ∧ o.frameIndex = t.blk.fIndex ∧ o.frameId = t.blk.fId ∧
      (o.frameTrigger = true ↔ o.frameActive = true ∧ o.frameIndex = s.cfg.pretrigger)

/-- A trigger while a frame is active is reported and loads `hold`, and leaves the frame to advance or end as if there
were none, on its last step too (44_frame.md R184, in part marked as derived; 60_exceptions.md R244). -/
def Obligations.TriggerWhileActiveIgnoredByFrame : Prop :=
  ∀ (s : State) (x : Int), legal s.cfg = true → InSampleRange x → s.blk.fActive = true → triggerOut s.cfg s.blk = true →
    ∃ t o, exec (.step x) s = .next t ∧ t.log = s.log ++ [o] ∧ o.trigger = true ∧ o.frameStart = false ∧
      t.blk.hold = s.cfg.holdoff ∧ t.blk.fId = s.blk.fId ∧
      t.blk.fActive = decide (s.blk.fIndex < s.cfg.frameLen - 1) ∧
      t.blk.fIndex = if s.blk.fIndex < s.cfg.frameLen - 1 then s.blk.fIndex + 1 else 0

/-- The ring in an ordinary step: what `raw_delayed` reads, the one slot written (`wp`, the address the meaning stores
to), every other slot as before, and the pointer's advance; the canonical form is kept. The pointer and the pass-through
are the spec's own decisions (45_raw_delay.md R201, R202, D7, D8). -/
def Obligations.RingReadThenWrite : Prop :=
  ∀ (s : State) (x : Int), legal s.cfg = true → InSampleRange x → Memory.wf s.blk.ring = true →
    ∃ t o, exec (.step x) s = .next t ∧ t.log = s.log ++ [o] ∧
      o.rawDelayed =
        (if s.cfg.dataDelay = 0 then x
          else Memory.read s.blk.ring ((s.blk.wp + 1) % (s.cfg.dataDelay + 1))) ∧
      Memory.read t.blk.ring s.blk.wp = x ∧
      (∀ k, k ≠ s.blk.wp → Memory.read t.blk.ring k = Memory.read s.blk.ring k) ∧
      t.blk.wp = (s.blk.wp + 1) % (s.cfg.dataDelay + 1) ∧ Memory.wf t.blk.ring = true

/-- A reset step clears every register and every slot, and changes neither the configuration nor the driver's count
beyond the step itself (40_step.md R103, 70_reset_and_hazards.md R261; `wp = 0` is decision D7). -/
def Obligations.ResetClearsEveryRegister : Prop :=
  ∀ (s : State) (x : Int), legal s.cfg = true → InSampleRange x →
    ∃ t, exec (.reset x) s = .next t ∧ t.cfg = s.cfg ∧ t.n = s.n + 1 ∧ t.input = s.input ∧
      (∀ i < 32, t.blk.rRead i = 0 ∧ t.blk.d0Read i = 0 ∧ t.blk.d1Read i = 0) ∧
      t.blk.s0 = 0 ∧ t.blk.s1 = 0 ∧ t.blk.s2 = 0 ∧ t.blk.s3 = 0 ∧ t.blk.hold = 0 ∧
      t.blk.fActive = false ∧ t.blk.fIndex = 0 ∧ t.blk.fId = 0 ∧
      (∀ k, Memory.read t.blk.ring k = 0) ∧ t.blk.wp = 0

/-- The record does not depend on the reset flag: a reset step reports what an ordinary step would from the same state
(40_step.md R101, the spec's own decision D5; log entry 12). -/
def Obligations.ResetRecordIsStepRecord : Prop :=
  ∀ (s : State) (x : Int), legal s.cfg = true → InSampleRange x →
    ∃ t u, exec (.step x) s = .next t ∧ exec (.reset x) s = .next u ∧ u.log = t.log

/-- With `S1`, `S2` and `S3` all 0 no beat reports a trigger, whatever the threshold, and none opens a frame
(43_trigger.md R167, which the spec marks as derived). -/
def Obligations.ZeroChainNeverTriggers : Prop :=
  ∀ (i : Instr) (s : State), legal s.cfg = true → i.wf = true →
    s.blk.s1 = 0 → s.blk.s2 = 0 → s.blk.s3 = 0 →
    ∃ t o, exec i s = .next t ∧ t.log = s.log ++ [o] ∧ o.trigger = false ∧ o.frameStart = false

/-! ### Invariants and whole-machine rules -/

/-- A newly constructed admitted instance of any configuration meets the invariant (10_state.md R38), and so does the reset
state of the model, whose configuration is the model's choice (log entry 5). -/
def Obligations.InvariantHoldsAtConstruction : Prop :=
  (∀ c : Config, legal c = true → Inv (State.initial c)) ∧ Inv State.reset

/-- Every step keeps the invariant: `r = d1`, the range of every datapath register, the dead-time and frame bounds, the
ring's canonical form, slots and samples, and one record a step (10_state.md R27, R29, R31, R32, R34; 41_fir.md R126;
20_memory.md R67; 40_step.md R105). Several of these are marked in the spec as derived. -/
def Obligations.InvariantKeptByEveryStep : Prop :=
  ∀ s t : State, Inv s → step s = .next t → Inv t

/-- No run of any length changes the configuration (10_state.md R20, decision D12). -/
def Obligations.ConfigurationNeverChanges : Prop :=
  ∀ (k : Nat) (s t : State), steps k s = .next t → t.cfg = s.cfg

/-- A run over waiting beats completes, one record a beat, and takes exactly those beats (40_step.md R106,
60_exceptions.md R255; the end of a run is decision D19). -/
def Obligations.RunTakesItsBeats : Prop :=
  ∀ (k : Nat) (s : State), legal s.cfg = true → k ≤ s.input.length →
    ∃ t, steps k s = .next t ∧ t.input = s.input.drop k ∧ t.n = s.n + k ∧ t.log.length = s.log.length + k ∧
      t.log.take s.log.length = s.log

/-- The frame counter rises by exactly 1 at a frame start, changes at no other ordinary step, and is 0 after a reset step
(44_frame.md R189; the unbounded width is decision D10). -/
def Obligations.FrameIdCountsFrameStarts : Prop :=
  ∀ (s t : State) (o : OutputRecord), step s = .next t → t.log = s.log ++ [o] →
    ∃ w ws, s.input = w :: ws ∧
      t.blk.fId = if (decode w).isReset = true then 0 else if o.frameStart = true then s.blk.fId + 1 else s.blk.fId

/-- No datapath value of an instance wraps in a signed register of `ACC_W` bits: each is the signed reading of its own
`ACC_W`-bit word, the tap sums of the current step among them (00_scope.md R10, 41_fir.md R126; decision D3). -/
def Obligations.DatapathFitsAccumulatorWidth : Prop :=
  ∀ (s : State) (x v : Int), Inv s → InSampleRange x →
    ((∃ i < 32, v = s.blk.rRead i ∨ v = s.blk.d0Read i ∨ v = s.blk.d1Read i ∨ v = tapSum s.cfg s.blk x i) ∨
      v = s.blk.s0 ∨ v = s.blk.s1 ∨ v = s.blk.s2 ∨ v = s.blk.s3 ∨ v = proc s.cfg s.blk.s1) →
    (BitVec.ofInt s.cfg.accW v).toInt = v

/-- The output ports lose nothing of a record, at any `FIDX_W` that holds `FRAME_LEN − 1` and any `FRAME_ID_W` that holds
the reported id (30_encoding.md R88; decision D2). -/
def Obligations.PortsCarryTheRecord : Prop :=
  ∀ (i : Instr) (s t : State) (o : OutputRecord) (fidxW frameIdW : Nat),
    Inv s → exec i s = .next t → t.log = s.log ++ [o] → s.cfg.frameLen ≤ 2 ^ fidxW → o.frameId < 2 ^ frameIdW →
    let p := o.ports s.cfg.accW fidxW frameIdW
    p.raw.toInt = o.raw ∧ p.rawDelayed.toInt = o.rawDelayed ∧
    p.xcorrRaw.toInt = o.xcorrRaw ∧ p.xcorrProc.toInt = o.xcorrProc ∧
    (p.trigger = 1#1 ↔ o.trigger = true) ∧ (p.frameStart = 1#1 ↔ o.frameStart = true) ∧
    (p.frameActive = 1#1 ↔ o.frameActive = true) ∧ (p.frameTrigger = 1#1 ↔ o.frameTrigger = true) ∧
    p.frameIndex.toNat = o.frameIndex ∧ p.frameId.toNat = o.frameId

/-! ### Runs -/

/-- The closed form of every tap register, over every stream of beats and every admitted instance, with the epoch-masked
sample: `r` and `d1` at the even lags 2(k − i + 1), `d0` at the odd lags 1 + 2(k − i) (41_fir.md R125, in part marked as
derived; `d1 = r` is 10_state.md R27, marked as derived). -/
def Obligations.FirClosedForm : Prop :=
  ∀ (c : Config) (bs : List BeatWord) (u : Nat) (s : State), steps u (started c bs) = .next s →
    ∀ i < 32,
      s.blk.rRead i = ∑ k ∈ Finset.Ico i 32, coeffAt c k * masked bs u ((u : Int) - 2 * ((k : Int) - i + 1)) ∧
      s.blk.d1Read i = ∑ k ∈ Finset.Ico i 32, coeffAt c k * masked bs u ((u : Int) - 2 * ((k : Int) - i + 1)) ∧
      s.blk.d0Read i = ∑ k ∈ Finset.Ico i 32, coeffAt c k * masked bs u ((u : Int) - 1 - 2 * ((k : Int) - i))

/-- The closed form of every reported correlation value, and of the chain behind it
(42_xcorr_chain.md R145, in part marked as derived). -/
def Obligations.CorrelationClosedForm : Prop :=
  ∀ (c : Config) (bs : List BeatWord) (u : Nat) (s : State), steps u (started c bs) = .next s →
    (∀ n o, s.log[n]? = some o → o.xcorrRaw = correlation c bs n n) ∧
    s.blk.s0 = correlation c bs u (u + 1) ∧ s.blk.s1 = correlation c bs u u ∧
    s.blk.s2 = correlation c bs u ((u : Int) - 1) ∧ s.blk.s3 = correlation c bs u ((u : Int) - 2)

/-- A single non-zero sample shows in `xcorr_raw` at exactly the 32 even offsets 4, 6, …, 66, each with its own
coefficient (70_reset_and_hazards.md R275, 41_fir.md R128; the spec marks both as derived). -/
def Obligations.ImpulseResponse : Prop :=
  ∀ (c : Config) (bs : List BeatWord) (u m : Nat) (s : State), steps u (started c bs) = .next s →
    (∀ j, resetOf bs j = false) → (∀ j, j ≠ m → sampleOf bs j = 0) →
    ∀ n o, s.log[n]? = some o →
      (∀ k < 32, n = m + 2 * k + 4 → o.xcorrRaw = coeffAt c k * sampleOf bs m) ∧
      ((∀ k < 32, n ≠ m + 2 * k + 4) → o.xcorrRaw = 0)

/-- The network holds no trace of a sample 65 steps later: two runs that differ in one sample only have equal tap
registers from then on (41_fir.md R128, which the spec marks as derived). -/
def Obligations.NetworkForgetsOldSample : Prop :=
  ∀ (c : Config) (bs bs' : List BeatWord) (u m : Nat) (s s' : State),
    steps u (started c bs) = .next s → steps u (started c bs') = .next s' →
    (∀ j, j ≠ m → bs.getD j 0 = bs'.getD j 0) → resetOf bs m = resetOf bs' m → m + 65 ≤ u →
    s.blk.r = s'.blk.r ∧ s.blk.d0 = s'.blk.d0 ∧ s.blk.d1 = s'.blk.d1

/-- The closed form of `raw_delayed` (45_raw_delay.md R203, which the spec marks as derived; D8 for a delay of 0). -/
def Obligations.RawDelayedClosedForm : Prop :=
  ∀ (c : Config) (bs : List BeatWord) (u : Nat) (s : State), steps u (started c bs) = .next s →
    ∀ n o, s.log[n]? = some o →
      o.rawDelayed = if c.dataDelay = 0 then sampleOf bs n else masked bs n ((n : Int) - c.dataDelay)

/-- The closed form of the trigger (43_trigger.md R166, which the spec marks as derived): `h` is the state before step `n`. -/
def Obligations.TriggerClosedForm : Prop :=
  ∀ (c : Config) (bs : List BeatWord) (n : Nat) (h s : State) (o : OutputRecord),
    steps n (started c bs) = .next h → step h = .next s → s.log[n]? = some o →
    (o.trigger = true ↔ h.blk.hold = 0 ∧ c.threshold < proc c (correlation c bs n n) ∧
      c.threshold < proc c (correlation c bs n ((n : Int) - 1)) ∧
      proc c (correlation c bs n ((n : Int) - 2)) ≤ c.threshold)

/-- After a trigger accepted on an ordinary step, the next `HOLDOFF` steps report none and the detector is then armed
again, if no reset falls in the window (43_trigger.md R165, 90_conflicts.md C9; in part marked as derived). -/
def Obligations.DeadTimeAfterTrigger : Prop :=
  ∀ (s t : State) (new : List OutputRecord),
    steps (s.cfg.holdoff + 1) s = .next t → t.log = s.log ++ new →
    (∀ j ≤ s.cfg.holdoff, ∀ w, s.input[j]? = some w → (decode w).isReset = false) →
    (∃ o, new[0]? = some o ∧ o.trigger = true) →
    (∀ j o, 1 ≤ j → j ≤ s.cfg.holdoff → new[j]? = some o → o.trigger = false) ∧ t.blk.hold = 0

/-- A frame that opens and meets no reset reports its index at each of its `FRAME_LEN` steps, one id, one `frame_start`,
`frame_trigger` at `PRETRIGGER` only, and is over after them (44_frame.md R188, R187; the spec marks R188 as derived). -/
def Obligations.FrameRunsItsLength : Prop :=
  ∀ (s t : State) (new : List OutputRecord),
    steps (s.cfg.frameLen + 1) s = .next t → t.log = s.log ++ new →
    (∀ j < s.cfg.frameLen, ∀ w, s.input[j]? = some w → (decode w).isReset = false) →
    (∃ o, new[0]? = some o ∧ o.frameStart = true) →
    (∀ j < s.cfg.frameLen, ∃ o, new[j]? = some o ∧ o.frameActive = true ∧ o.frameIndex = j ∧
      o.frameId = s.blk.fId + 1 ∧ (o.frameStart = true ↔ j = 0) ∧ (o.frameTrigger = true ↔ j = s.cfg.pretrigger)) ∧
    ∃ o, new[s.cfg.frameLen]? = some o ∧ o.frameActive = false ∧ o.frameStart = false ∧ o.frameTrigger = false

/-- Two triggers of one epoch are at least `max(3, HOLDOFF + 1)` steps apart (60_exceptions.md R245, which the spec marks
as derived). -/
def Obligations.MinimumTriggerSpacing : Prop :=
  ∀ (c : Config) (bs : List BeatWord) (u : Nat) (s : State), steps u (started c bs) = .next s →
    ∀ k k' o o', s.log[k]? = some o → s.log[k']? = some o' → k < k' → epochStart bs k = epochStart bs k' →
      o.trigger = true → o'.trigger = true → 3 ≤ k' - k ∧ c.holdoff + 1 ≤ k' - k

/-- The first steps of an epoch: no correlation for four, no delayed sample for `DATA_DELAY`, no trigger before the fifth
(sixth for a negative threshold) (70_reset_and_hazards.md R268, 60_exceptions.md R245; both marked as derived). -/
def Obligations.EpochFillLatencies : Prop :=
  ∀ (c : Config) (bs : List BeatWord) (u : Nat) (s : State), steps u (started c bs) = .next s →
    ∀ n o, s.log[n]? = some o →
      (n < epochStart bs n + 4 → o.xcorrRaw = 0 ∧ o.xcorrProc = 0) ∧
      (1 ≤ c.dataDelay → n < epochStart bs n + c.dataDelay → o.rawDelayed = 0) ∧
      (o.trigger = true → epochStart bs n + 5 ≤ n) ∧
      (o.trigger = true → c.threshold < 0 → epochStart bs n + 6 ≤ n)

/-- A reset makes a fresh epoch: what follows it is, but for the step numbers, what a newly constructed instance gives
for the same beats (70_reset_and_hazards.md R264, which the spec marks as derived). -/
def Obligations.ResetStartsFreshEpoch : Prop :=
  ∀ (s s' t : State) (w : BeatWord) (ws : List BeatWord) (k : Nat),
    s.input = w :: ws → (decode w).isReset = true → step s = .next s' → steps k s' = .next t →
    ∃ t', steps k (started s.cfg ws) = .next t' ∧ t'.blk = t.blk ∧
      t'.log.map withoutIndex = (t.log.drop s'.log.length).map withoutIndex

/-- A run of resets: every one after the first reports the all-zero state and its own sample
(70_reset_and_hazards.md R262, which the spec marks as derived; D5, D8). -/
def Obligations.ConsecutiveResetsReportZeros : Prop :=
  ∀ (k : Nat) (s t : State) (new : List OutputRecord),
    steps k s = .next t → t.log = s.log ++ new → (∀ j < k, resetOf s.input j = true) →
    ∀ j o, 1 ≤ j → new[j]? = some o →
      o = { index := s.n + j, raw := sampleOf s.input j,
            rawDelayed := if s.cfg.dataDelay = 0 then sampleOf s.input j else 0,
            xcorrRaw := 0, xcorrProc := 0, trigger := false, frameStart := false, frameActive := false,
            frameIndex := 0, frameId := 0, frameTrigger := false }

/-- One non-zero coefficient and one non-zero sample never trigger when the threshold is not negative, the source's own
regression scenario among them (43_trigger.md R168, which the spec marks as derived; 90_conflicts.md C2). -/
def Obligations.IsolatedPointNeverTriggers : Prop :=
  ∀ (c : Config) (bs : List BeatWord) (u k₀ j₀ : Nat) (s : State), steps u (started c bs) = .next s →
    0 ≤ c.threshold → (∀ k < 32, k ≠ k₀ → coeffAt c k = 0) → (∀ j, j ≠ j₀ → sampleOf bs j = 0) →
    ∀ o ∈ s.log, o.trigger = false

/-- The ring, its pointer and `DATA_DELAY` feed nothing but `raw_delayed`: change them in any state and every other field
of every later record, and every other register, stays (45_raw_delay.md R204, which the spec marks as derived). -/
def Obligations.DelayLineFeedsNothingElse : Prop :=
  ∀ (k : Nat) (s t : State) (delay : Nat) (ring : Memory) (wp : Nat), steps k s = .next t →
    ∃ t', steps k { s with cfg := { s.cfg with dataDelay := delay }, blk := { s.blk with ring := ring, wp := wp } }
        = .next t' ∧
      t'.log.map withoutDelayed = t.log.map withoutDelayed ∧
      { t'.blk with ring := t.blk.ring, wp := t.blk.wp } = t.blk

/-- The pointer's absolute value is hidden: a state with the ring and the pointer rotated together gives the same records
forever after (10_state.md R37, which the spec marks as derived). -/
def Obligations.RingRotationUnobservable : Prop :=
  ∀ (k a : Nat) (s t : State) (ring : Memory), Memory.wf s.blk.ring = true → Memory.wf ring = true →
    s.blk.wp < ringLen s.cfg →
    (∀ j < ringLen s.cfg, Memory.read ring ((j + a) % ringLen s.cfg) = Memory.read s.blk.ring j) →
    steps k s = .next t →
    ∃ t', steps k { s with blk := { s.blk with ring := ring, wp := (s.blk.wp + a) % ringLen s.cfg } } = .next t' ∧
      t'.log = t.log

/-! ### The driver -/

/-- 47_external_collaborators.md R221: the conditioner hands the block only samples in [−8192, 8191], and an unsigned value
before recentring lies in [0, 16383]. -/
def Obligations.ConditionedSamplesInRange : Prop :=
  ∀ (o : Options) (vs : List Int),
    (∀ x ∈ condition o vs, InSampleRange x) ∧ (condition o vs).length = vs.length ∧
    (o.unsigned14 = false → ∀ v, InSampleRange (cond1 o v)) ∧
    (o.unsigned14 = true → o.noCenter = true → ∀ v, 0 ≤ cond1 o v ∧ cond1 o v ≤ 16383) ∧
    (o.unsigned14 = true → o.noCenter = false → ∀ v, 0 ≤ cond1 o v + 8192 ∧ cond1 o v + 8192 ≤ 16383)

/-- With `input_bin16` a file of bytes is read as 16-bit little-endian words, a partial trailing word discarded, unsigned or
in two's complement as `BIN16_SIGNED` says (47_external_collaborators.md R224, R227; the parameter is OPEN, D25). -/
def Obligations.BinaryWaveformRead : Prop :=
  ∀ (o : Options) (file : List (BitVec 8)), o.inputBin16 = true →
    (inputValues o file).length = file.length / 2 ∧
    ∀ j < file.length / 2,
      let w : Nat := (file.getD (2 * j) 0).toNat + 256 * (file.getD (2 * j + 1) 0).toNat
      (inputValues o file).getD j 0 = if o.bin16Signed = true ∧ 2 ^ 15 ≤ w then (w : Int) - 2 ^ 16 else (w : Int)

/-- Without `input_bin16` a file is read as text: each line gives at most one value, in order; a blank line and a line
starting with `#` (35) give none; a line of decimal digits (48 to 57), with or without a minus sign (45) before them, gives
exactly its value (47_external_collaborators.md R223, R227; the plain decimal line is the example of decision D25 (d); the
line feed (10) and the character codes are the model's choice, log entry 27). -/
def Obligations.TextWaveformRead : Prop :=
  ∀ o : Options, o.inputBin16 = false →
    (∀ line rest : List (BitVec 8), (∀ b ∈ line, b ≠ 10#8) →
      inputValues o (line ++ 10#8 :: rest) = (inputValues o line) ++ inputValues o rest ∧
      (inputValues o line).length ≤ 1 ∧
      (line = [] ∨ line.head? = some 35#8 → inputValues o line = [])) ∧
    ∀ digits : List (Fin 10), digits ≠ [] →
      let bytes : List (BitVec 8) := digits.map fun d => BitVec.ofNat 8 (48 + d.val)
      let value : Nat := digits.foldl (fun acc d => 10 * acc + d.val) 0
      inputValues o bytes = [(value : Int)] ∧ inputValues o (45#8 :: bytes) = [-(value : Int)]

/-- 47_external_collaborators.md R228: a booted run presents every conditioned sample in order, asserts `rst` on the first
`reset_samples` steps and on no other, and reports neither a trigger nor an active frame on those. -/
def Obligations.ResetPrefixIsQuiet : Prop :=
  ∀ (o : Options) (file : List (BitVec 8)) (s t : State) (k : Nat), boot o file = .next s → steps k s = .next t →
    let vs := inputValues o file
    s.input.length = vs.length ∧
    (∀ j < vs.length, resetOf s.input j = decide (j < o.resetSamples) ∧
      sampleOf s.input j = (condition o vs).getD j 0) ∧
    ∀ n r, t.log[n]? = some r → n < o.resetSamples → r.trigger = false ∧ r.frameActive = false
end

