-- ==== Sys2Proof/Laws/Ring.lean ====
section
/-! SUPPORT. The laws of the ring: a read after a write to the same slot, every other slot kept, and the canonical form
kept by every write. -/

namespace Sys2Proof.Machine

@[simp] theorem Memory.read_nil (k : Nat) : Memory.read [] k = 0 := rfl

/-- Every listed slot of a canonical ring after the first has a greater number. -/
theorem Memory.wf_tail {k : Nat} {v : Int} {t : Memory} (h : Memory.wf ((k, v) :: t) = true) :
    v ≠ 0 ∧ Memory.wf t = true ∧ ∀ q ∈ t.head?, k < q.1 := by
  cases t with
  | nil => simpa [Memory.wf] using h
  | cons p t =>
    obtain ⟨k', v'⟩ := p
    simp only [Memory.wf, Bool.and_eq_true, decide_eq_true_eq] at h
    exact ⟨h.1.1, h.2, by simp [h.1.2]⟩

theorem Memory.wf_cons {k : Nat} {v : Int} {t : Memory} (hv : v ≠ 0) (ht : Memory.wf t = true)
    (hk : ∀ q ∈ t.head?, k < q.1) : Memory.wf ((k, v) :: t) = true := by
  cases t with
  | nil => simpa [Memory.wf] using hv
  | cons p t => simp [Memory.wf, hv, ht, hk p (by simp)]

/-- A slot below every listed one reads as 0. -/
theorem Memory.read_below {t : Memory} {k : Nat} (ht : Memory.wf t = true)
    (hk : ∀ q ∈ t.head?, k < q.1) : Memory.read t k = 0 := by
  induction t with
  | nil => rfl
  | cons p t ih =>
    have hlt : k < p.1 := hk p (by simp)
    obtain ⟨-, hw, hh⟩ := Memory.wf_tail ht
    simp only [Memory.read, Nat.ne_of_lt hlt, if_false]
    exact ih hw fun q hq => Nat.lt_trans hlt (hh q hq)

/-- The written slot reads as written. -/
theorem Memory.read_write_same {m : Memory} (hm : Memory.wf m = true) (k : Nat) (v : Int) :
    Memory.read (Memory.write m k v) k = v := by
  induction m with
  | nil => by_cases hv : v = 0 <;> simp [Memory.write, Memory.read, hv]
  | cons p t ih =>
    obtain ⟨-, hw, hh⟩ := Memory.wf_tail hm
    rcases Nat.lt_trichotomy k p.1 with h | h | h
    · by_cases hv : v = 0
      · simpa [Memory.write, h, hv] using Memory.read_below (t := p :: t) hm (by simpa using h)
      · simp [Memory.write, h, hv, Memory.read]
    · by_cases hv : v = 0
      · simpa [Memory.write, h, hv] using Memory.read_below hw hh
      · simp [Memory.write, h, hv, Memory.read]
    · simp [Memory.write, Nat.lt_asymm h, (Nat.ne_of_lt h).symm, Memory.read, ih hw]

/-- Every other slot reads as before. -/
theorem Memory.read_write_other (m : Memory) {k k' : Nat} (v : Int) (h : k' ≠ k) :
    Memory.read (Memory.write m k v) k' = Memory.read m k' := by
  induction m with
  | nil => by_cases hv : v = 0 <;> simp [Memory.write, Memory.read, hv, h]
  | cons p t ih =>
    simp only [Memory.write]
    split_ifs with h1 h2 h3 <;> simp_all [Memory.read]

/-- The slot a write leaves first is the written one or was first before. -/
theorem Memory.head_write {m : Memory} {k : Nat} {v : Int} (hm : Memory.wf m = true) {q : Nat × Int}
    (h : q ∈ (Memory.write m k v).head?) : q.1 = k ∨ ∃ p ∈ m.head?, p.1 ≤ q.1 := by
  cases m with
  | nil =>
    by_cases hv : v = 0
    · simp [Memory.write, hv] at h
    · simp only [Memory.write, hv, if_false, List.head?_cons, Option.mem_some_iff] at h
      exact Or.inl (h ▸ rfl)
  | cons p t =>
    obtain ⟨-, -, hh⟩ := Memory.wf_tail hm
    simp only [Memory.write] at h
    split_ifs at h <;> simp at h ⊢
    · exact Or.inr (h ▸ le_rfl)
    · exact Or.inl (h ▸ rfl)
    · exact Or.inr (hh q h).le
    · exact Or.inl (h ▸ rfl)
    · exact Or.inr (h ▸ le_rfl)

/-- A write keeps the canonical form. -/
theorem Memory.wf_write {m : Memory} (hm : Memory.wf m = true) (k : Nat) (v : Int) :
    Memory.wf (Memory.write m k v) = true := by
  induction m with
  | nil => by_cases hv : v = 0 <;> simp [Memory.write, Memory.wf, hv]
  | cons p t ih =>
    obtain ⟨hp, hw, hh⟩ := Memory.wf_tail hm
    simp only [Memory.write]
    split_ifs with h1 h2 h3 h4
    · exact hm
    · exact Memory.wf_cons h2 hm (by simpa using h1)
    · exact hw
    · exact Memory.wf_cons h4 hw (by simpa [h3] using hh)
    · refine Memory.wf_cons hp (ih hw) fun q hq => ?_
      rcases Memory.head_write hw hq with h | ⟨q', hq', hle⟩
      · omega
      · exact Nat.lt_of_lt_of_le (hh q' hq') hle

end Sys2Proof.Machine
end

