-- ==== Sys2Proof/Laws/State.lean ====
section
/-! SUPPORT. The fields of the states the operations build, so that no later proof unfolds a record. -/

namespace Sys2Proof.Machine

section commit
variable (s : State) (o : OutputRecord) (b : Block)
@[simp] theorem State.commit_cfg : (s.commit o b).cfg = s.cfg := rfl
@[simp] theorem State.commit_blk : (s.commit o b).blk = b := rfl
@[simp] theorem State.commit_n : (s.commit o b).n = s.n + 1 := rfl
@[simp] theorem State.commit_input : (s.commit o b).input = s.input := rfl
@[simp] theorem State.commit_log : (s.commit o b).log = s.log ++ [o] := rfl
end commit

section initial
variable (c : Config)
@[simp] theorem State.initial_cfg : (State.initial c).cfg = c := rfl
@[simp] theorem State.initial_blk : (State.initial c).blk = Block.zero := rfl
@[simp] theorem State.initial_n : (State.initial c).n = 0 := rfl
@[simp] theorem State.initial_input : (State.initial c).input = [] := rfl
@[simp] theorem State.initial_log : (State.initial c).log = [] := rfl
end initial

@[simp] theorem Block.zero_rRead (i : Nat) : Block.zero.rRead i = 0 := by
  simp [Block.rRead, Block.zero]
@[simp] theorem Block.zero_d0Read (i : Nat) : Block.zero.d0Read i = 0 := by
  simp [Block.d0Read, Block.zero]
@[simp] theorem Block.zero_d1Read (i : Nat) : Block.zero.d1Read i = 0 := by
  simp [Block.d1Read, Block.zero]
@[simp] theorem Block.zero_s0 : Block.zero.s0 = 0 := rfl
@[simp] theorem Block.zero_s1 : Block.zero.s1 = 0 := rfl
@[simp] theorem Block.zero_s2 : Block.zero.s2 = 0 := rfl
@[simp] theorem Block.zero_s3 : Block.zero.s3 = 0 := rfl
@[simp] theorem Block.zero_hold : Block.zero.hold = 0 := rfl
@[simp] theorem Block.zero_fActive : Block.zero.fActive = false := rfl
@[simp] theorem Block.zero_fIndex : Block.zero.fIndex = 0 := rfl
@[simp] theorem Block.zero_fId : Block.zero.fId = 0 := rfl
@[simp] theorem Block.zero_ring : Block.zero.ring = [] := rfl
@[simp] theorem Block.zero_wp : Block.zero.wp = 0 := rfl

/-- A read of the hardwired register returns 0 (10_state.md R25). -/
@[simp] theorem Block.rRead_hardwired (b : Block) : b.rRead 32 = 0 := by simp [Block.rRead]

/-- Two register arrays with the same reads are the same array. -/
theorem vector_ext_reads {u v : Vector Int 32} (h : ∀ i (hi : i < 32), u[i] = v[i]) : u = v :=
  Vector.ext h

end Sys2Proof.Machine
end

