-- ==== Sys2Proof/Laws/Exec.lean ====
section
/-! SUPPORT. What one beat and one step can do, said once, and the fields of the block after a beat. -/

namespace Sys2Proof.Machine

@[simp] theorem blockAfter_step (c : Config) (b : Block) (x : Int) :
    blockAfter c b (.step x) = nextRun c b x := rfl
@[simp] theorem blockAfter_reset (c : Config) (b : Block) (x : Int) :
    blockAfter c b (.reset x) = Block.zero := rfl

theorem legal_iff (c : Config) : legal c = true ↔ illegalField c = none := by simp [legal]

/-- Nothing is refused of an admitted instance and a sample in range. -/
theorem refusal_eq_none_iff (s : State) (x : Int) :
    refusal s x = none ↔ legal s.cfg = true ∧ InSampleRange x := by
  unfold refusal
  rw [legal_iff]
  cases illegalField s.cfg <;> simp

/-- A beat completes exactly on an admitted instance and a sample in range, and then it commits its record and the
block after it. -/
theorem exec_eq_next_iff (i : Instr) (s t : State) :
    exec i s = .next t ↔ legal s.cfg = true ∧ InSampleRange i.sample ∧
      t = s.commit (outRecord s.cfg s.blk s.n i.sample) (blockAfter s.cfg s.blk i) := by
  rw [← and_assoc]
  cases i with
  | step x =>
    simp only [exec, execStep, Instr.sample_step, blockAfter_step, ← refusal_eq_none_iff]
    cases refusal s x <;> simp [eq_comm]
  | reset x =>
    simp only [exec, execReset, Instr.sample_reset, blockAfter_reset, ← refusal_eq_none_iff]
    cases refusal s x <;> simp [eq_comm]

/-- No beat faults (60_exceptions.md R240). -/
theorem exec_ne_fault (i : Instr) (s : State) (f : Fault) : exec i s ≠ .fault f := by
  cases i with
  | step x => simp only [exec, execStep]; cases refusal s x <;> simp
  | reset x => simp only [exec, execReset]; cases refusal s x <;> simp

theorem massFrom_nonneg (c : Config) (i : Nat) : 0 ≤ massFrom c i :=
  Finset.sum_nonneg fun _ _ => abs_nonneg _

/-- The mass of the taps from `i` on is tap `i`'s and the rest (41_fir.md R126). -/
theorem massFrom_step (c : Config) {i : Nat} (hi : i < 32) :
    massFrom c i = |coeffAt c i| + massFrom c (i + 1) :=
  Finset.sum_eq_sum_Ico_succ_bot hi fun k => |coeffAt c k|

@[simp] theorem massFrom_end (c : Config) : massFrom c 32 = 0 := by simp [massFrom]

section nextRun
variable (c : Config) (b : Block) (x : Int)

theorem nextRun_d0Read {i : Nat} (hi : i < 32) : (nextRun c b x).d0Read i = tapSum c b x i := by
  simp [Block.d0Read, nextRun, d0Next, hi]
theorem nextRun_d1Read (i : Nat) : (nextRun c b x).d1Read i = b.d0Read i := rfl
theorem nextRun_rRead (i : Nat) : (nextRun c b x).rRead i = b.d0Read i := rfl
@[simp] theorem nextRun_s0 : (nextRun c b x).s0 = b.rRead 0 := rfl
@[simp] theorem nextRun_s1 : (nextRun c b x).s1 = b.s0 := rfl
@[simp] theorem nextRun_s2 : (nextRun c b x).s2 = b.s1 := rfl
@[simp] theorem nextRun_s3 : (nextRun c b x).s3 = b.s2 := rfl
@[simp] theorem nextRun_hold : (nextRun c b x).hold = holdNext c b (triggerOut c b) := rfl
@[simp] theorem nextRun_fActive :
    (nextRun c b x).fActive = (frameNext c b (triggerOut c b)).active := rfl
@[simp] theorem nextRun_fIndex :
    (nextRun c b x).fIndex = (frameNext c b (triggerOut c b)).index := rfl
@[simp] theorem nextRun_fId : (nextRun c b x).fId = (frameNext c b (triggerOut c b)).id := rfl
@[simp] theorem nextRun_ring : (nextRun c b x).ring = Memory.write b.ring b.wp x := rfl
@[simp] theorem nextRun_wp : (nextRun c b x).wp = (b.wp + 1) % (c.dataDelay + 1) := rfl

end nextRun

section outRecord
variable (c : Config) (b : Block) (n : Nat) (x : Int)

@[simp] theorem outRecord_index : (outRecord c b n x).index = n := rfl
@[simp] theorem outRecord_raw : (outRecord c b n x).raw = x := rfl
@[simp] theorem outRecord_rawDelayed : (outRecord c b n x).rawDelayed = rawDelayOut c b x := rfl
@[simp] theorem outRecord_xcorrRaw : (outRecord c b n x).xcorrRaw = b.s1 := rfl
@[simp] theorem outRecord_xcorrProc : (outRecord c b n x).xcorrProc = proc c b.s1 := rfl
@[simp] theorem outRecord_trigger : (outRecord c b n x).trigger = triggerOut c b := rfl
@[simp] theorem outRecord_frameStart :
    (outRecord c b n x).frameStart = (frameNext c b (triggerOut c b)).start := rfl
@[simp] theorem outRecord_frameActive :
    (outRecord c b n x).frameActive = (frameNext c b (triggerOut c b)).active := rfl
@[simp] theorem outRecord_frameIndex :
    (outRecord c b n x).frameIndex = (frameNext c b (triggerOut c b)).index := rfl
@[simp] theorem outRecord_frameId :
    (outRecord c b n x).frameId = (frameNext c b (triggerOut c b)).id := rfl
@[simp] theorem outRecord_frameTrigger :
    (outRecord c b n x).frameTrigger = frameTrigger c (frameNext c b (triggerOut c b)) := rfl

end outRecord

/-- `proc` of 0 is 0 under every setting (42_xcorr_chain.md R143). -/
@[simp] theorem proc_zero (c : Config) : proc c 0 = 0 := by
  cases h : c.xcorrNegate <;> cases h' : c.xcorrAbs <;> simp [proc, h, h']

end Sys2Proof.Machine
end

