-- ==== Sys2Proof/Laws/Blocks.lean ====
section
/-! SUPPORT. One lemma per sub-block operation that says everything it can answer. -/

namespace Sys2Proof.Machine

/-- What an admitted configuration is (00_scope.md R10, R11). -/
theorem legal_iff_rules (c : Config) : legal c = true ↔
    c.coeff.length = 32 ∧ 1 ≤ c.frameLen ∧ 1 ≤ c.accW ∧ 8192 * coeffMass c.coeff ≤ 2 ^ (c.accW - 1) - 1 := by
  have hb : withinBound c.accW c.coeff = true ↔
      1 ≤ c.accW ∧ 8192 * coeffMass c.coeff ≤ 2 ^ (c.accW - 1) - 1 := by
    rw [withinBound, Bool.and_eq_true_iff]
    exact and_congr decide_eq_true_iff decide_eq_true_iff
  have h3 : ¬ (c.holdoff : Int) < 0 := by omega
  have h4 : ¬ (c.pretrigger : Int) < 0 := by omega
  have h5 : ¬ (c.dataDelay : Int) < 0 := by omega
  have h2 : (c.frameLen : Int) < 1 ↔ ¬ 1 ≤ c.frameLen := by omega
  rw [legal_iff, ← hb]
  simp only [illegalField, firstIllegal, setupOf, ntaps, h2, h3, h4, h5, if_false]
  by_cases h : c.coeff.length = 32 <;> by_cases h' : 1 ≤ c.frameLen <;>
    by_cases h'' : withinBound c.accW c.coeff = true <;> simp [h, h', h'']

/-- The list's mass is the sum over the 32 taps. -/
theorem coeffMass_eq_massFrom {c : Config} (h : c.coeff.length = 32) :
    (coeffMass c.coeff : Int) = massFrom c 0 := by
  have key (l : List Int) :
      (coeffMass l : Int) = ∑ k ∈ Finset.range l.length, |l.getD k 0| := by
    induction l with
    | nil => rfl
    | cons a l ih =>
      rw [List.length_cons, Finset.sum_range_succ', add_comm]
      simpa [coeffMass] using ih
  rw [key, h, massFrom, Finset.range_eq_Ico]
  rfl

/-- Every datapath bound of an admitted instance is below `2^(ACC_W−1)` (41_fir.md R126). -/
theorem massFrom_bound {c : Config} (h : legal c = true) :
    1 ≤ c.accW ∧ 8192 * massFrom c 0 ≤ 2 ^ (c.accW - 1) - 1 := by
  obtain ⟨hlen, -, hw, hb⟩ := (legal_iff_rules c).1 h
  refine ⟨hw, ?_⟩
  rw [← coeffMass_eq_massFrom hlen]
  have hp : 1 ≤ 2 ^ (c.accW - 1) := Nat.one_le_two_pow
  zify [hp] at hb
  exact hb

/-- The mass of fewer taps is smaller. -/
theorem massFrom_anti (c : Config) {i j : Nat} (hij : i ≤ j) : massFrom c j ≤ massFrom c i :=
  Finset.sum_le_sum_of_subset_of_nonneg (Finset.Ico_subset_Ico_left hij) fun _ _ _ => abs_nonneg _

/-- The bypass changes no number (41_fir.md R123). -/
theorem tapSum_eq (c : Config) (b : Block) (x : Int) (i : Nat) :
    tapSum c b x i = coeffAt c i * x + b.rRead (i + 1) := by
  unfold tapSum; split <;> simp_all

/-- `proc` changes at most the sign. -/
theorem abs_proc (c : Config) (v : Int) : |proc c v| = |v| := by
  cases h : c.xcorrNegate <;> cases h' : c.xcorrAbs <;> simp [proc, h, h']

theorem proc_eq_zero_iff (c : Config) (v : Int) : proc c v = 0 ↔ v = 0 := by
  rw [← abs_eq_zero, abs_proc, abs_eq_zero]

/-- The trigger (43_trigger.md R161, R162). -/
theorem triggerOut_iff (c : Config) (b : Block) : triggerOut c b = true ↔
    b.hold = 0 ∧ c.threshold < proc c b.s1 ∧ c.threshold < proc c b.s2 ∧ proc c b.s3 ≤ c.threshold := by
  simp [triggerOut, edge, and_assoc]

/-- The dead-time counter never passes `HOLDOFF` and is 0 after a step on an armed detector without a trigger. -/
theorem holdNext_le (c : Config) (b : Block) (trig : Bool) (h : b.hold ≤ c.holdoff) :
    holdNext c b trig ≤ c.holdoff := by
  unfold holdNext; split_ifs <;> omega

section frameNext
variable {c : Config} {b : Block} {trig : Bool}

/-- A frame opens (44_frame.md R182). -/
theorem frameNext_open (h : b.fActive = false) :
    frameNext c b true = ⟨true, 0, b.fId + 1, true⟩ := by simp [frameNext, h]

/-- No frame and no trigger (44_frame.md R185). -/
theorem frameNext_idle (h : b.fActive = false) :
    frameNext c b false = ⟨false, 0, b.fId, false⟩ := by simp [frameNext, h]

/-- A frame advances, whatever the trigger (44_frame.md R183, R184). -/
theorem frameNext_advance (h : b.fActive = true) (hi : b.fIndex < c.frameLen - 1) :
    frameNext c b trig = ⟨true, b.fIndex + 1, b.fId, false⟩ := by simp [frameNext, h, hi]

/-- A frame ends, whatever the trigger (44_frame.md R183, R184). -/
theorem frameNext_end (h : b.fActive = true) (hi : ¬ b.fIndex < c.frameLen - 1) :
    frameNext c b trig = ⟨false, 0, b.fId, false⟩ := by simp [frameNext, h, hi]

end frameNext

/-- The frame bounds of 10_state.md R31 hold of every frame transition of an admitted instance. -/
theorem frameNext_bounds (c : Config) (b : Block) (trig : Bool) (hl : 1 ≤ c.frameLen) :
    ((frameNext c b trig).active = true → (frameNext c b trig).index < c.frameLen) ∧
    ((frameNext c b trig).active = false → (frameNext c b trig).index = 0) := by
  unfold frameNext; split_ifs <;> simp <;> omega

/-- The delayed sample is a sample of the ring or the step's own (45_raw_delay.md R201). -/
theorem rawDelayOut_cases (c : Config) (b : Block) (x : Int) :
    (c.dataDelay = 0 ∧ rawDelayOut c b x = x) ∨
    (c.dataDelay ≠ 0 ∧ rawDelayOut c b x = Memory.read b.ring ((b.wp + 1) % (c.dataDelay + 1))) := by
  by_cases h : c.dataDelay = 0 <;> simp [rawDelayOut, ringLen, h]

end Sys2Proof.Machine
end

