-- ==== Sys2Proof/Laws/Decode.lean ====
section
/-! SUPPORT. Facts about the sample field and the beat word. -/

namespace Sys2Proof

/-- `sext_14` is the two's complement reading of the field. -/
theorem sext14_eq_toInt (v : SampleField) : sext14 v = v.toInt := by
  unfold sext14
  rw [BitVec.toInt_eq_msb_cond, BitVec.msb_eq_getLsbD_last]
  simp

theorem sext14_range (v : SampleField) : InSampleRange (sext14 v) := by
  rw [sext14_eq_toInt]
  have h1 := BitVec.le_toInt v
  have h2 := BitVec.toInt_lt (x := v)
  norm_num at h1 h2
  exact ⟨h1, by omega⟩

/-- The fields of a beat word built from them. -/
theorem beatWord_fields (b : BitVec 1) (v : SampleField) :
    (beatWord b v).getLsbD 14 = b.getLsbD 0 ∧ sampleField (beatWord b v) = v := by
  have h (j : Nat) : (beatWord b v).getLsbD j = if j < 14 then v.getLsbD j else b.getLsbD (j - 14) :=
    BitVec.getLsbD_append.trans (by split <;> simp_all)
  refine ⟨by simpa using h 14, BitVec.eq_of_getLsbD_eq fun j hj => ?_⟩
  simp [sampleField, h, hj]

theorem decode_sample (w : BeatWord) : (decode w).sample = sext14 (sampleField w) := by
  unfold decode; split <;> rfl

/-- Every beat word carries a sample in range (30_encoding.md R82). -/
theorem decode_sample_range (w : BeatWord) : InSampleRange (decode w).sample :=
  decode_sample w ▸ sext14_range _

end Sys2Proof
end

