-- ==== Sys2Proof/Laws/Driver.lean ====
section
/-! SUPPORT. The small lemmas of the waveform decoders and of the frame id port. -/

namespace Sys2Proof.Machine

/-- A frame id its width holds is on the port as itself (30_encoding.md R88). -/
theorem frameIdPort_toNat {w id : Nat} (h : id < 2 ^ w) : (frameIdPort w id).toNat = id := by
  simp [frameIdPort, h, Nat.mod_eq_of_lt h]

/-- A numeral of decimal digits is its value, most significant digit first. -/
theorem decimalFrom_digits (digits : List (Fin 10)) (acc : Nat) :
    decimalFrom acc (digits.map fun d => Char.ofNat (48 + d.val)) =
      some (digits.foldl (fun a d => 10 * a + d.val) acc) := by
  induction digits generalizing acc with
  | nil => rfl
  | cons d ds ih =>
    have hc : (Char.ofNat (48 + d.val)).toNat = 48 + d.val := by revert d; decide
    have hr : 48 ≤ 48 + d.val ∧ 48 + d.val ≤ 57 := by omega
    simp only [List.map_cons, List.foldl_cons, decimalFrom, hc, hr, and_self, if_true, Nat.add_sub_cancel_left]
    exact ih _

/-- A plain decimal line is its own value, whatever any other line gives (92_eei_decisions.md D25 (d)). -/
theorem textLine_of_signedDecimal {cs : List Char} {v : Int} (h : cs.head? ≠ some '#')
    (hv : signedDecimal cs = some v) : textLine cs = some v := by
  unfold textLine
  split
  · simp [signedDecimal, decimal] at hv
  · simp at h
  · simp [hv]

@[simp] theorem textLine_blank : textLine [] = none := rfl
@[simp] theorem textLine_comment (cs : List Char) : textLine ('#' :: cs) = none := rfl

/-- A line with no line feed is read up to its end. -/
theorem textLines_append (cur : List Char) (line rest : List (BitVec 8)) (h : ∀ b ∈ line, b ≠ 10#8) :
    textLines cur (line ++ 10#8 :: rest) =
      (cur.reverse ++ line.map fun b => Char.ofNat b.toNat) :: textLines [] rest := by
  induction line generalizing cur with
  | nil => simp [textLines]
  | cons b bs ih =>
    simp only [List.mem_cons, forall_eq_or_imp] at h
    simp [textLines, h.1, ih _ h.2]

/-- A file with no line feed is one line. -/
theorem textLines_single (cur : List Char) (line : List (BitVec 8)) (h : ∀ b ∈ line, b ≠ 10#8) :
    textLines cur line = [cur.reverse ++ line.map fun b => Char.ofNat b.toNat] := by
  induction line generalizing cur with
  | nil => simp [textLines]
  | cons b bs ih =>
    simp only [List.mem_cons, forall_eq_or_imp] at h
    simp [textLines, h.1, ih _ h.2]

@[simp] theorem bin16_nil (o : Options) : bin16 o [] = [] := rfl
@[simp] theorem bin16_single (o : Options) (b : BitVec 8) : bin16 o [b] = [] := rfl
theorem bin16_cons (o : Options) (lo hi : BitVec 8) (rest : List (BitVec 8)) :
    bin16 o (lo :: hi :: rest) =
      (if o.bin16Signed then (hi ++ lo : BitVec 16).toInt else ((hi ++ lo : BitVec 16).toNat : Int)) :: bin16 o rest := rfl

end Sys2Proof.Machine
end

