-- ==== Sys2Proof/Laws/PerInstr.lean ====
section
/-! SUPPORT. One fact per beat kind about its word: bit 14 is the reset flag and the low bits are the sample field
(30_encoding.md R81, R84). -/

namespace Sys2Proof.Laws.Format

/-- `B[14]` of the word is the reset flag and `B[13:0]` is the sample's 14-bit two's complement. -/
def Statement (i : Instr) : Prop :=
  (encode i).getLsbD 14 = i.isReset ∧ sampleField (encode i) = BitVec.ofInt 14 i.sample

theorem step (x : Int) : Statement (.step x) := beatWord_fields 0#1 (BitVec.ofInt 14 x)

theorem reset (x : Int) : Statement (.reset x) := beatWord_fields 1#1 (BitVec.ofInt 14 x)

end Sys2Proof.Laws.Format
end

