-- ==== Sys2Proof/Laws/Step.lean ====
section
/-! SUPPORT. What one step and several steps can do. -/

namespace Sys2Proof.Machine

theorem step_nil {s : State} (h : s.input = []) : step s = .fault .endOfInput := by
  simp [step, takeBeat, h]

theorem step_cons {s : State} {w : BeatWord} {ws : List BeatWord} (h : s.input = w :: ws) :
    step s = exec (decode w) { s with input := ws } := by
  simp [step, takeBeat, h]

/-- A step completes exactly when a beat is there and the instance is admitted, and then it does this. -/
theorem step_eq_next_iff (s t : State) :
    step s = .next t ↔ ∃ w ws, s.input = w :: ws ∧ legal s.cfg = true ∧
      t = State.commit { s with input := ws } (outRecord s.cfg s.blk s.n (decode w).sample)
        (blockAfter s.cfg s.blk (decode w)) := by
  cases h : s.input with
  | nil => simp [step_nil h]
  | cons w ws =>
    rw [step_cons h, exec_eq_next_iff]
    have hr : InSampleRange (decode w).sample := decode_sample_range w
    constructor
    · rintro ⟨hl, -, ht⟩
      exact ⟨w, ws, rfl, hl, ht⟩
    · rintro ⟨w', ws', hw, hl, ht⟩
      obtain ⟨rfl, rfl⟩ := List.cons.inj hw
      exact ⟨hl, hr, ht⟩

@[simp] theorem steps_zero (s : State) : steps 0 s = .next s := rfl

theorem steps_succ_eq_next_iff (k : Nat) (s t : State) :
    steps (k + 1) s = .next t ↔ ∃ s', step s = .next s' ∧ steps k s' = .next t := by
  simp only [steps]
  cases step s <;> simp

/-- `k` steps and then one more. -/
theorem steps_last (k : Nat) (s t : State) :
    steps (k + 1) s = .next t ↔ ∃ s', steps k s = .next s' ∧ step s' = .next t := by
  induction k generalizing s with
  | zero =>
    rw [steps_succ_eq_next_iff]
    constructor
    · rintro ⟨s', h, h'⟩
      obtain rfl : s' = t := by simpa using h'
      exact ⟨s, rfl, h⟩
    · rintro ⟨s', h, h'⟩
      obtain rfl : s = s' := by simpa using h
      exact ⟨t, h', rfl⟩
  | succ k ih =>
    rw [steps_succ_eq_next_iff]
    constructor
    · rintro ⟨s', h, h'⟩
      obtain ⟨u, hu, hu'⟩ := (ih s').1 h'
      exact ⟨u, (steps_succ_eq_next_iff k s u).2 ⟨s', h, hu⟩, hu'⟩
    · rintro ⟨u, hu, hu'⟩
      obtain ⟨s', h, h'⟩ := (steps_succ_eq_next_iff k s u).1 hu
      exact ⟨s', h, (ih s').2 ⟨u, h', hu'⟩⟩

/-- An admitted instance with a beat waiting takes a step. -/
theorem step_exists {s : State} {w : BeatWord} {ws : List BeatWord} (hl : legal s.cfg = true)
    (h : s.input = w :: ws) : ∃ t, step s = .next t ∧ legal t.cfg = true ∧ t.input = ws :=
  ⟨_, (step_eq_next_iff s _).2 ⟨w, ws, h, hl, rfl⟩, hl, rfl⟩

/-- An admitted instance takes as many steps as there are beats waiting. -/
theorem steps_exists (k : Nat) {s : State} (hl : legal s.cfg = true) (h : k ≤ s.input.length) :
    ∃ t, steps k s = .next t := by
  induction k generalizing s with
  | zero => exact ⟨s, rfl⟩
  | succ k ih =>
    cases hi : s.input with
    | nil => simp [hi] at h
    | cons w ws =>
      obtain ⟨u, hu, hul, hui⟩ := step_exists hl hi
      obtain ⟨t, ht⟩ := ih hul (by rw [hui]; simpa [hi] using h)
      exact ⟨t, (steps_succ_eq_next_iff k s t).2 ⟨u, hu, ht⟩⟩

/-- `steps` is the host's own iteration of the step. -/
theorem steps_eq_coreRun (k : Nat) (s : State) : steps k s = Host.Core.run Sys2Proof.core k s := by
  induction k generalizing s with
  | zero => rfl
  | succ k ih =>
    rw [Host.Core.run.eq_2 Sys2Proof.core s k, steps]
    cases h : step s with
    | next t => rw [show Sys2Proof.core.step s = .next t from h]; exact ih t
    | fault f => rw [show Sys2Proof.core.step s = .fault f from h]; rfl
    | refused f => rw [show Sys2Proof.core.step s = .refused f from h]; rfl

end Sys2Proof.Machine
end

