-- ==== Sys2Proof/Tests/Slice0.lean ====
section
/-! SUPPORT. The model's own tests, expected values from the spec's examples and vectors, and a witness for the hypotheses
of every statement that has any. -/

namespace Sys2Proof.Tests

open Sys2Proof Sys2Proof.Machine

/-! ### Small states -/

/-- `COEFF[0] = a`, `COEFF[1] = b`, the rest 0. -/
def cfg2 (a b threshold : Int) (holdoff frameLen pretrigger dataDelay : Nat) : Config where
  coeff := a :: b :: List.replicate 30 0
  threshold := threshold
  holdoff := holdoff
  frameLen := frameLen
  pretrigger := pretrigger
  dataDelay := dataDelay
  xcorrNegate := false
  xcorrAbs := false
  accW := 64

/-- A small instance: one tap, threshold 5, one step of dead time, frames of two steps, a delay of one. -/
def small : Config := cfg2 1 0 5 1 2 1 1

/-- An edge at the detector of an armed instance (V-TRIG-1): `S1 = 6`, `S2 = 6`, `S3 = 5`, and a sample in slot 0. -/
def edgeState (ws : List BeatWord) : State :=
  { started small ws with blk := { Block.zero with s1 := 6, s2 := 6, s3 := 5, ring := [(0, 7)] } }

/-- A test of the state an outcome goes on with. -/
def nextIs (r : Host.Outcome State Fault Refusal) (p : State → Bool) : Bool :=
  match r with
  | .next t => p t
  | _ => false

theorem exists_of_nextIs {r : Host.Outcome State Fault Refusal} {p : State → Bool} (h : nextIs r p = true) :
    ∃ t, r = .next t ∧ p t = true := by
  cases r <;> simp_all [nextIs]

/-! ### Well-formedness smoke -/

theorem test_wf_refuses_above : (Instr.step 8192).wf = false ∧ (Instr.reset 8192).wf = false := by decide
theorem test_wf_refuses_below : (Instr.step (-8193)).wf = false ∧ (Instr.reset (-8193)).wf = false := by decide

/-! ### Decoding and encoding: the words of 30_encoding.md R87 and 95_test_vectors.md V-ENC, written bit by bit -/

theorem test_decode_step_minus4 : decode 0b011111111111100#15 = .step (-4) := by decide
theorem test_decode_step_min : decode 0b010000000000000#15 = .step (-8192) := by decide
theorem test_decode_step_max : decode 0b001111111111111#15 = .step 8191 := by decide
theorem test_decode_reset_7 : decode 0b100000000000111#15 = .reset 7 := by decide
theorem test_decode_reset_min : decode 0b110000000000000#15 = .reset (-8192) := by decide
theorem test_encode_reset_minus1 : encode (.reset (-1)) = 0x7FFF#15 := by decide
theorem test_encode_step_10 : encode (.step 10) = 0x000A#15 := by decide
theorem test_bit15_is_no_beat :
    decodeTableWord 16 0x8000 = none ∧ decodeNat 0x8000 = .error (.notABeatWord 0x8000) := by decide
theorem test_table_rows :
    decodeTableWord 16 0x0000 = some (.step 0) ∧ decodeTableWord 16 0x4000 = some (.reset 0) := by decide

/-! ### One step -/

/-- V-FIR-1. -/
theorem test_step_taps :
    nextIs (exec (.step (-3)) { started (cfg2 3 5 5 0 1 0 0) [] with blk :=
      { Block.zero with
        d0 := Vector.ofFn fun i => if i = 0 then 2 else if i = 1 then 4 else 0
        d1 := Vector.ofFn fun i => if i = 0 then 9 else if i = 1 then 8 else if i = 2 then 11 else 0
        r := Vector.ofFn fun i => if i = 0 then 9 else if i = 1 then 8 else if i = 2 then 11 else 0 } })
      (fun t => t.blk.d0Read 0 = -1 ∧ t.blk.d0Read 1 = -4 ∧ t.blk.d0Read 2 = 0 ∧ t.blk.rRead 0 = 2 ∧
        t.blk.d1Read 1 = 4 ∧ t.blk.s0 = 9) = true := by decide

/-- V-TRIG-1 with program P2's step 7: trigger, dead time and a frame at once. -/
theorem test_step_trigger_opens_frame :
    nextIs (exec (.step 0) (edgeState []))
      (fun t => t.blk.hold = 1 ∧ t.blk.fActive = true ∧ t.blk.fId = 1 ∧
        t.log.map (·.trigger) = [true] ∧ t.log.map (·.frameStart) = [true]) = true := by decide

/-- Program P4, step 7: the record of the pre-reset state, with the reset step's own sample passed through. -/
theorem test_reset_reports_then_clears :
    nextIs (exec (.reset 5) { started { cfg2 1 0 0 5 8 3 0 with xcorrAbs := true } [] with n := 7, blk :=
      { Block.zero with s1 := 3, s2 := 3 } })
      (fun t => t.blk = Block.zero ∧ t.log = [⟨7, 5, 5, 3, 3, true, true, true, 0, 1, false⟩]) = true := by decide

/-- V-RING-2, step 4: the reset step reports the ring's old value and its sample does not enter. -/
theorem test_reset_reports_old_ring :
    nextIs (exec (.reset 5) { started (cfg2 1 0 5 0 1 0 1) [] with blk :=
      { Block.zero with ring := [(0, 3), (1, 4)] } })
      (fun t => t.log.map (·.rawDelayed) = [4] ∧ t.blk.ring = []) = true := by decide

/-- The word the host stores is the beat the next step takes. -/
theorem test_fetch_word :
    nextIs (step (State.reset.withFetchWord 16 0x4005))
      (fun t => t.n = 1 ∧ t.input = [] ∧ t.log.map (·.raw) = [5]) = true := by decide

/-! ### Operations -/

/-- 42_xcorr_chain.md R143: negate before the absolute value. -/
theorem test_proc_both : proc { small with xcorrNegate := true, xcorrAbs := true } (-12) = 12 := by decide
theorem test_proc_negate : proc { small with xcorrNegate := true } 8 = -8 := by decide
/-- 45_raw_delay.md R201, example. -/
theorem test_ring_read :
    rawDelayOut (cfg2 1 0 5 0 1 0 2) { Block.zero with wp := 1, ring := [(0, 10), (2, 10)] } 3 = 10 := by decide
/-- Options of a signed waveform with a template of one unit weight and one leading reset. -/
def bootOptions : Options where
  template := some (1 :: List.replicate 31 0)
  threshold := 5
  holdoff := 0
  xcorrNegate := false
  xcorrAbs := false
  unsigned14 := false
  noCenter := false
  inputBin16 := false
  baselineSub := none
  autoBaseline := false
  bin16Signed := false
  resetSamples := 1

/-- V-COND-6: auto overrides explicit, and the mean is truncated toward zero. -/
theorem test_condition_auto_baseline :
    condition { bootOptions with baselineSub := some 5, autoBaseline := true }
      [-1, -2] = [0, -1] := by decide
/-- 47_external_collaborators.md R224: little-endian, a partial trailing word discarded, signed or not. -/
theorem test_bin16 :
    bin16 bootOptions [0xFF#8, 0xFF#8, 1#8, 0#8, 3#8] = [65535, 1] ∧
    bin16 { bootOptions with bin16Signed := true } [0xFF#8, 0xFF#8] = [-1] := by decide
/-- 47_external_collaborators.md R223, R227: the text "# a", "", "-4", "20" and the binary decoder on the same option. -/
theorem test_input_decoder_selected :
    inputValues bootOptions [0x23#8, 0x61#8, 10#8, 10#8, 0x2D#8, 0x34#8, 10#8, 0x32#8, 0x30#8] = [-4, 20] ∧
    inputValues { bootOptions with inputBin16 := true } [0x23#8, 0x61#8, 10#8] = [0x6123] := by decide
/-- The `n` of a pseudo-beat may be 0 (log entry 25), the count after `x` may not (30_encoding.md R90). -/
theorem test_parse_zero_counts :
    parseLine ['I', 'D', 'L', 'E', ' ', '0'] = some (.idle 0) ∧
    parseLine ['S', 'T', 'E', 'P', ' ', '0', ' ', 'x', ' ', '0'] = none := by decide
/-- 30_encoding.md R90: `STEP -4 x 2 # c`. -/
theorem test_parse_line :
    parseLine ['S', 'T', 'E', 'P', ' ', '-', '4', ' ', 'x', ' ', '2', ' ', '#', ' ', 'c'] =
      some (.beats (.step (-4)) 2) := by decide

/-! ### Witnesses: concrete values that meet the hypotheses of the statements -/

/-- DecodeEncodeRoundTrip, at both ends of the sample range. -/
theorem witness_DecodeEncodeRoundTrip : (Instr.step (-8192)).wf = true ∧ (Instr.reset 8191).wf = true := by decide

theorem witness_StepExecutesDecodedBeat : (edgeState [0x4007#15]).input = 0x4007#15 :: [] := rfl

/-- OnlyBeatWordsDecode, on both sides of the boundary. -/
theorem witness_OnlyBeatWordsDecode :
    decodeTableWord 16 0x7FFF = some (.reset (-1)) ∧ decodeTableWord 16 0x8000 = none := by decide

/-- StepStopsExactlyHere, each side. -/
theorem witness_StepStopsExactlyHere :
    (edgeState []).input = [] ∧ (edgeState [0]).input ≠ [] ∧
    illegalField (started { small with frameLen := 0 } [0]).cfg = some .frameLen ∧
    illegalField (edgeState [0]).cfg = none := by decide

/-- ConstructionAdmitsLegalSetups, the admitted side and three refused ones: V-REF-4, V-REF-1, V-REF-2, V-REF-3. -/
theorem witness_ConstructionAdmitsLegalSetups :
    firstIllegal (setupOf { cfg2 3 0 5 0 1 0 0 with accW := 16 }) = none ∧
    firstIllegal (setupOf { small with coeff := List.replicate 31 0 }) = some .coeffCount ∧
    firstIllegal (setupOf (cfg2 1 0 5 0 0 0 0)) = some .frameLen ∧
    firstIllegal (setupOf { cfg2 4 0 5 0 1 0 0 with accW := 16 }) = some .coeffBound ∧
    firstIllegal { setupOf small with holdoff := -1 } = some .holdoff := by decide

/-- OutOfRangeSampleRefused, one past each end. -/
theorem witness_OutOfRangeSampleRefused :
    legal (edgeState []).cfg = true ∧ ¬ InSampleRange 8192 ∧ ¬ InSampleRange (-8193) := by decide

theorem witness_IllegalInstanceTakesNoStep :
    illegalField (started { small with coeff := [] } []).cfg = some .coeffCount := by decide

/-- EveryBeatGivesOneRecord, BeatKeepsConfigAndPassesThrough and PostProcessingReported. -/
theorem witness_admittedBeat :
    legal (edgeState []).cfg = true ∧ (Instr.step (-8192)).wf = true ∧ (Instr.reset 8191).wf = true := by decide

/-- PostProcessingReported, its four settings. -/
theorem witness_PostProcessingReported (ng ab : Bool) :
    legal { small with xcorrNegate := ng, xcorrAbs := ab } = true := by cases ng <;> cases ab <;> decide

/-- TapRegistersUpdate, ZeroCoefficientBypassIsExact, ChainShiftsFromPreStepValues, TriggerIsArmedEdge,
HoldoffCounterUpdate, FrameTransition, FrameFieldsReportedAfterTransition, ResetClearsEveryRegister and
ResetRecordIsStepRecord, at both ends of the sample range. -/
theorem witness_admittedSample :
    legal (edgeState []).cfg = true ∧ InSampleRange (-8192) ∧ InSampleRange 8191 := by decide

/-- FrameTransition, its four cases, the two of an active frame at their meeting point `FRAME_LEN − 1 = 1`. -/
theorem witness_FrameTransition :
    (edgeState []).blk.fActive = false ∧ triggerOut small (edgeState []).blk = true ∧
    (0 < small.frameLen - 1) ∧ (small.frameLen - 1 ≤ 1) ∧ triggerOut small Block.zero = false := by decide

theorem witness_TriggerWhileActiveIgnoredByFrame :
    legal small = true ∧ InSampleRange 0 ∧ ({ (edgeState []).blk with fActive := true, fIndex := 1 }).fActive = true ∧
    triggerOut small { (edgeState []).blk with fActive := true, fIndex := 1 } = true := by decide

theorem witness_RingReadThenWrite :
    legal (edgeState []).cfg = true ∧ InSampleRange 0 ∧ Memory.wf (edgeState []).blk.ring = true := by decide

theorem witness_ZeroChainNeverTriggers :
    legal (started (cfg2 1 0 (-1) 0 1 0 0) []).cfg = true ∧ (Instr.reset 3).wf = true ∧
    Block.zero.s1 = 0 ∧ Block.zero.s2 = 0 ∧ Block.zero.s3 = 0 := by decide

/-- InvariantHoldsAtConstruction. -/
theorem witness_InvariantHoldsAtConstruction : legal small = true := by decide

theorem edgeState_inv (ws : List BeatWord) : Inv (edgeState ws) := by
  have hm : massFrom small 0 = 1 := by decide
  exact {
    admitted := (by decide : legal small = true)
    sharedStage := rfl
    tapRange := fun i _ => by
      have h := massFrom_nonneg small i
      have h0 : (edgeState ws).blk.d0Read i = 0 := Block.zero_d0Read i
      have h1 : (edgeState ws).blk.d1Read i = 0 := Block.zero_d1Read i
      rw [h0, h1, abs_zero]
      exact ⟨by simpa [edgeState, started] using h, by simpa [edgeState, started] using h⟩
    chainRange := by
      change |(0 : Int)| ≤ 8192 * massFrom small 0 ∧ |(6 : Int)| ≤ 8192 * massFrom small 0 ∧
        |(6 : Int)| ≤ 8192 * massFrom small 0 ∧ |(5 : Int)| ≤ 8192 * massFrom small 0
      rw [hm]; decide
    holdRange := Nat.zero_le _
    frameActive := by intro h; cases h
    frameIdle := fun _ => rfl
    wpRange := (by decide : 0 < ringLen small)
    ringWf := (by decide : Memory.wf [(0, 7)] = true)
    ringSlots := fun k hk => by
      change 2 ≤ k at hk
      change Memory.read [(0, 7)] k = 0
      simp only [Memory.read]; split <;> omega
    ringSamples := fun k => by
      change InSampleRange (Memory.read [(0, 7)] k)
      simp only [Memory.read]; split <;> decide
    logLength := rfl }

theorem witness_InvariantKeptByEveryStep : Inv (edgeState [5#15]) ∧ ∃ t, step (edgeState [5#15]) = .next t :=
  ⟨edgeState_inv _, (step_exists (by decide) rfl).imp fun _ h => h.1⟩

theorem witness_ConfigurationNeverChanges : ∃ t, steps 2 (edgeState [5#15, 0x4000#15]) = .next t :=
  steps_exists 2 (by decide) (by decide)

theorem witness_RunTakesItsBeats : legal (edgeState [5#15]).cfg = true ∧ 1 ≤ (edgeState [5#15]).input.length := by decide

theorem witness_FrameIdCountsFrameStarts :
    ∃ t o, step (edgeState [0#15]) = .next t ∧ t.log = (edgeState [0#15]).log ++ [o] :=
  ⟨_, _, (step_eq_next_iff _ _).2 ⟨_, _, rfl, by decide, rfl⟩, rfl⟩

theorem witness_DatapathFitsAccumulatorWidth : Inv (edgeState []) ∧ InSampleRange (-8192) ∧ 6 = (edgeState []).blk.s1 :=
  ⟨edgeState_inv _, by decide, rfl⟩

theorem witness_PortsCarryTheRecord :
    Inv (edgeState []) ∧ ∃ t o, exec (.step 5) (edgeState []) = .next t ∧ t.log = (edgeState []).log ++ [o] ∧
      (edgeState []).cfg.frameLen ≤ 2 ^ 1 ∧ o.frameId < 2 ^ 1 :=
  ⟨edgeState_inv _, _, _, (exec_eq_next_iff _ _ _).2 ⟨by decide, by decide, rfl⟩, rfl, by decide, by decide⟩

/-- FirClosedForm, CorrelationClosedForm, RawDelayedClosedForm and TriggerClosedForm: a run with a reset in it. -/
theorem witness_closedForms :
    ∃ h, steps 2 (started small [1#15, 0x4000#15, 2#15]) = .next h ∧
      ∃ s, step h = .next s ∧ (s.log[2]?).isSome = true := by
  obtain ⟨h, hh, hp⟩ := exists_of_nextIs (r := steps 2 (started small [1#15, 0x4000#15, 2#15]))
    (p := fun h => nextIs (step h) fun s => (s.log[2]?).isSome) (by decide)
  exact ⟨h, hh, exists_of_nextIs hp⟩

theorem witness_ImpulseResponse :
    (∃ s, steps 5 (started small [9#15, 0, 0, 0, 0]) = .next s ∧ (s.log[4]?).isSome = true) ∧
    (∀ j, resetOf [9#15, 0, 0, 0, 0] j = false) ∧ ∀ j, j ≠ 0 → sampleOf [9#15, 0, 0, 0, 0] j = 0 := by
  refine ⟨exists_of_nextIs (by decide), fun j => ?_, fun j hj => ?_⟩
  · rcases j with _ | _ | _ | _ | _ | j <;> first | decide | (simp [resetOf]; decide)
  · rcases j with _ | _ | _ | _ | _ | j <;> first | exact absurd rfl hj | decide | (simp [sampleOf]; decide)

theorem witness_NetworkForgetsOldSample :
    (∃ s, steps 65 (started small (9#15 :: List.replicate 64 0)) = .next s) ∧
    (∃ s, steps 65 (started small (8#15 :: List.replicate 64 0)) = .next s) ∧
    (∀ j, j ≠ 0 → (9#15 :: List.replicate 64 0).getD j 0 = (8#15 :: List.replicate 64 0).getD j 0) ∧
    resetOf (9#15 :: List.replicate 64 0) 0 = resetOf (8#15 :: List.replicate 64 0) 0 ∧ 0 + 65 ≤ 65 := by
  refine ⟨steps_exists 65 (by decide) (by decide), steps_exists 65 (by decide) (by decide), fun j hj => ?_, by decide, by decide⟩
  cases j with
  | zero => exact absurd rfl hj
  | succ j => rfl

theorem witness_DeadTimeAfterTrigger :
    (∃ t, steps ((edgeState [0, 0]).cfg.holdoff + 1) (edgeState [0, 0]) = .next t ∧
      (t.log[0]?.map (·.trigger) == some true) = true) ∧
    ∀ j ≤ (edgeState [0, 0]).cfg.holdoff, ∀ w, (edgeState [0, 0]).input[j]? = some w → (decode w).isReset = false := by
  refine ⟨exists_of_nextIs (by decide), fun j hj w hw => ?_⟩
  rcases j with _ | _ | j
  · obtain rfl : (0 : BeatWord) = w := Option.some.inj hw
    decide
  · obtain rfl : (0 : BeatWord) = w := Option.some.inj hw
    decide
  · exact absurd hw (by simp [edgeState, started])

theorem witness_FrameRunsItsLength :
    (∃ t, steps ((edgeState [0, 0, 0]).cfg.frameLen + 1) (edgeState [0, 0, 0]) = .next t ∧
      (t.log[0]?.map (·.frameStart) == some true) = true) ∧
    ∀ j < (edgeState [0, 0, 0]).cfg.frameLen, ∀ w, (edgeState [0, 0, 0]).input[j]? = some w → (decode w).isReset = false := by
  refine ⟨exists_of_nextIs (by decide), fun j hj w hw => ?_⟩
  change j < 2 at hj
  have : w = 0 := by
    rcases j with _ | _ | j
    · exact (Option.some.inj hw).symm
    · exact (Option.some.inj hw).symm
    · omega
  subst this; decide

/-- MinimumTriggerSpacing: V-HOLD-1's first two triggers, at the least spacing. -/
theorem witness_MinimumTriggerSpacing :
    (∃ s, steps 9 (started (cfg2 1 0 0 0 1 0 0) [1#15, 1, 0, 1, 1, 0, 0, 0, 0]) = .next s ∧
      decide (s.log[5]?.map (·.trigger) = some true ∧ s.log[8]?.map (·.trigger) = some true) = true) ∧
    epochStart [1#15, 1, 0, 1, 1, 0, 0, 0, 0] 5 = epochStart [1#15, 1, 0, 1, 1, 0, 0, 0, 0] 8 :=
  ⟨exists_of_nextIs (by decide), by decide⟩

/-- EpochFillLatencies: a trigger at its earliest step for a threshold of 0. -/
theorem witness_EpochFillLatencies :
    (∃ s, steps 6 (started (cfg2 1 0 0 0 1 0 1) [1#15, 1, 0, 0, 0, 0]) = .next s ∧
      decide (s.log[5]?.map (·.trigger) = some true) = true) ∧ epochStart [1#15, 1, 0, 0, 0, 0] 5 = 0 ∧
    1 ≤ (cfg2 1 0 0 0 1 0 1).dataDelay :=
  ⟨exists_of_nextIs (by decide), by decide, by decide⟩

/-- EpochFillLatencies: a trigger at its earliest step for a negative threshold. -/
theorem witness_EpochFillLatencies_negative :
    (∃ s, steps 7 (started (cfg2 1 0 (-1) 0 1 0 1) [0x3FFF#15, 0, 0, 0, 0, 0, 0]) = .next s ∧
      decide (s.log[6]?.map (·.trigger) = some true) = true) ∧ (cfg2 1 0 (-1) 0 1 0 1).threshold < 0 :=
  ⟨exists_of_nextIs (by decide), by decide⟩

theorem witness_ResetStartsFreshEpoch :
    (decode 0x4005#15).isReset = true ∧ ∃ s', step (edgeState [0x4005#15, 3#15]) = .next s' ∧
      ∃ t, steps 1 s' = .next t := by
  obtain ⟨s', hs, hp⟩ := exists_of_nextIs (r := step (edgeState [0x4005#15, 3#15]))
    (p := fun s' => nextIs (steps 1 s') fun _ => true) (by decide)
  obtain ⟨t, ht, -⟩ := exists_of_nextIs hp
  exact ⟨by decide, s', hs, t, ht⟩

theorem witness_ConsecutiveResetsReportZeros :
    (∃ t, steps 2 (edgeState [0x4005#15, 0x4006#15]) = .next t ∧ (t.log[1]?).isSome = true) ∧
    ∀ j < 2, resetOf (edgeState [0x4005#15, 0x4006#15]).input j = true :=
  ⟨exists_of_nextIs (by decide), by decide⟩

theorem witness_IsolatedPointNeverTriggers :
    (∃ s, steps 6 (started (cfg2 1 0 5 0 1 0 0) [10#15, 0, 0, 0, 0, 0]) = .next s) ∧
    0 ≤ (cfg2 1 0 5 0 1 0 0).threshold ∧ (∀ k < 32, k ≠ 0 → coeffAt (cfg2 1 0 5 0 1 0 0) k = 0) ∧
    ∀ j, j ≠ 0 → sampleOf [10#15, 0, 0, 0, 0, 0] j = 0 := by
  refine ⟨steps_exists 6 (by decide) (by decide), by decide, by decide, fun j hj => ?_⟩
  rcases j with _ | _ | _ | _ | _ | _ | j <;> first | exact absurd rfl hj | decide | (simp [sampleOf]; decide)

theorem witness_DelayLineFeedsNothingElse : ∃ t, steps 2 (edgeState [1#15, 2#15]) = .next t :=
  steps_exists 2 (by decide) (by decide)

theorem witness_RingRotationUnobservable :
    Memory.wf (edgeState [1#15, 2#15]).blk.ring = true ∧ Memory.wf [(1, 7)] = true ∧
    (edgeState [1#15, 2#15]).blk.wp < ringLen small ∧
    (∀ j < ringLen small, Memory.read [(1, 7)] ((j + 1) % ringLen small) = Memory.read (edgeState []).blk.ring j) ∧
    ∃ t, steps 2 (edgeState [1#15, 2#15]) = .next t :=
  ⟨by decide, by decide, by decide, by decide, steps_exists 2 (by decide) (by decide)⟩

/-- ConditionedSamplesInRange, its three modes. -/
theorem witness_ConditionedSamplesInRange :
    bootOptions.unsigned14 = false ∧
    ({ bootOptions with unsigned14 := true, noCenter := true }.unsigned14 = true ∧
      { bootOptions with unsigned14 := true, noCenter := true }.noCenter = true) ∧
    ({ bootOptions with unsigned14 := true }.unsigned14 = true ∧
      { bootOptions with unsigned14 := true }.noCenter = false) := by decide

/-- BinaryWaveformRead, with a partial trailing word and words on both sides of 2^15. -/
theorem witness_BinaryWaveformRead :
    { bootOptions with inputBin16 := true, bin16Signed := true }.inputBin16 = true ∧
    inputValues { bootOptions with inputBin16 := true, bin16Signed := true } [0xFF#8, 0x7F#8, 0x00#8, 0x80#8, 9#8] =
      [32767, -32768] := by decide

/-- TextWaveformRead: a data line, a blank line and a comment line, and numerals of one digit and more, with both signs. -/
theorem witness_TextWaveformRead :
    bootOptions.inputBin16 = false ∧ (∀ b ∈ [0x37#8], b ≠ 10#8) ∧ (∀ b ∈ [35#8, 0x37#8], b ≠ 10#8) ∧
    inputValues bootOptions [0x37#8] = [7] ∧ [35#8, 0x37#8].head? = some 35#8 ∧
    ([0] : List (Fin 10)) ≠ [] ∧ ([8, 1, 9, 2] : List (Fin 10)) ≠ [] ∧ inputValues bootOptions [0x30#8] = [0] ∧
    inputValues bootOptions [0x2D#8, 0x38#8, 0x31#8, 0x39#8, 0x32#8] = [-8192] := by decide

/-- ResetPrefixIsQuiet, from the text file "7", "9". -/
theorem witness_ResetPrefixIsQuiet :
    ∃ s, boot bootOptions [0x37#8, 10#8, 0x39#8] = .next s ∧
      ∃ t, steps 2 s = .next t ∧ (t.log[0]?).isSome = true := by
  obtain ⟨s, hs, hp⟩ := exists_of_nextIs (r := boot bootOptions [0x37#8, 10#8, 0x39#8])
    (p := fun s => nextIs (steps 2 s) fun t => (t.log[0]?).isSome) (by decide)
  exact ⟨s, hs, exists_of_nextIs hp⟩

end Sys2Proof.Tests
end

section
/-! What the two beat kinds do to the tap registers (41_fir.md R121, R122, 10_state.md R25). -/

namespace Sys2Proof.Machine

/-- An admitted beat completes: its record is logged and the block takes its next state (40_step.md R100). -/
theorem exec_eq_next_commit (i : Instr) {s : State} (hl : legal s.cfg = true) (hx : InSampleRange i.sample) :
    exec i s = .next (s.commit (outRecord s.cfg s.blk s.n i.sample) (blockAfter s.cfg s.blk i)) :=
  (exec_eq_next_iff i s _).2 ⟨hl, hx, rfl⟩

/-- Settles O12, from the completed beat of each kind and the reads of `nextRun` and of the all-zero block. -/
theorem tapRegistersUpdate : Obligations.TapRegistersUpdate := by
  intro s x hl hx
  constructor
  · refine ⟨_, exec_eq_next_commit (.step x) hl hx, Block.rRead_hardwired _, Block.rRead_hardwired _, fun i hi => ?_⟩
    exact ⟨nextRun_d0Read _ _ _ hi, nextRun_d1Read _ _ _ i, nextRun_rRead _ _ _ i⟩
  · refine ⟨_, exec_eq_next_commit (.reset x) hl hx, Block.rRead_hardwired _, fun i _ => ?_⟩
    exact ⟨Block.zero_d0Read i, Block.zero_d1Read i, Block.zero_rRead i⟩

end Sys2Proof.Machine
end

section
/-! One record for every admitted beat, and no fault (40_step.md R105, 60_exceptions.md R240). -/

namespace Sys2Proof.Machine

/-- Settles O10: an admitted beat of either kind ends in one commit, which appends the one record `Out(σ, x)`, and the
only stop a beat knows is a refusal. -/
theorem everyBeatGivesOneRecord : Obligations.EveryBeatGivesOneRecord := by
  refine ⟨fun i s hl hw => ?_, exec_ne_fault⟩
  have hx : InSampleRange i.sample := i.wf_iff.1 hw
  exact ⟨_, _, exec_eq_next_commit i hl hx, State.commit_log _ _ _⟩

end Sys2Proof.Machine
end

section
/-! The correlation chain and its post-processing (42_xcorr_chain.md R141, R143, R144, R146). -/

namespace Sys2Proof.Machine

/-- `proc` with the absolute value of the integers: the sign is changed first (42_xcorr_chain.md R143). -/
theorem proc_eq (c : Config) (v : Int) : proc c v =
    if c.xcorrAbs then |if c.xcorrNegate then -v else v| else if c.xcorrNegate then -v else v := by
  simp only [proc, Int.natCast_natAbs]

/-- Settles O14: `STEP` commits the block `nextRun`, whose chain is the pre-step one moved on by one place, and `RESET`
commits the all-zero block. -/
theorem chainShiftsFromPreStepValues : Obligations.ChainShiftsFromPreStepValues := by
  intro s x hl hx
  constructor
  · exact ⟨_, exec_eq_next_commit (.step x) hl hx, nextRun_s0 _ _ _, nextRun_s1 _ _ _, nextRun_s2 _ _ _,
      nextRun_s3 _ _ _⟩
  · exact ⟨_, exec_eq_next_commit (.reset x) hl hx, Block.zero_s0, Block.zero_s1, Block.zero_s2, Block.zero_s3⟩

/-- Settles O15: a beat of either kind commits the record `Out(σ, x)` of the pre-step block, and `proc_eq` read under
each of the four settings gives the value of `proc`. -/
theorem postProcessingReported : Obligations.PostProcessingReported := by
  intro i s hl hw
  have hx : InSampleRange i.sample := i.wf_iff.1 hw
  refine ⟨_, _, exec_eq_next_commit i hl hx, State.commit_log _ _ _, outRecord_xcorrRaw _ _ _ _,
    outRecord_xcorrProc _ _ _ _, fun v => ?_⟩
  rw [proc_eq]
  refine ⟨?_, ?_, ?_, ?_⟩ <;> intro hn ha <;> simp [hn, ha]

end Sys2Proof.Machine
end

section
/-! The detector's trigger and its dead-time counter (43_trigger.md R161, R162, R163). -/

namespace Sys2Proof.Machine

section holdNext
variable {c : Config} {b : Block} {trig : Bool}

/-- A suppressed detector counts down, whatever the comparator gives. -/
theorem holdNext_suppressed (h : 0 < b.hold) : holdNext c b trig = b.hold - 1 := if_pos h

/-- An accepted trigger loads the dead time. -/
theorem holdNext_accepted (h : b.hold = 0) : holdNext c b true = c.holdoff := by simp [holdNext, h]

/-- An armed detector without a trigger stays armed. -/
theorem holdNext_quiet (h : b.hold = 0) : holdNext c b false = 0 := by simp [holdNext, h]

end holdNext

/-- Settles O16: the record of `STEP` reports `TriggerOut` of the pre-step block, which `triggerOut_iff` reads as the
armed edge. -/
theorem triggerIsArmedEdge : Obligations.TriggerIsArmedEdge := by
  intro s x hl hx
  exact ⟨_, _, exec_eq_next_commit (.step x) hl hx, State.commit_log _ _ _, triggerOut_iff s.cfg s.blk⟩

/-- Settles O17: `STEP` commits `holdNext` of the trigger it reports, split into a suppressed detector, an accepted
trigger and neither, and `RESET` commits the all-zero block. -/
theorem holdoffCounterUpdate : Obligations.HoldoffCounterUpdate := by
  intro s x hl hx
  constructor
  · refine ⟨_, _, exec_eq_next_commit (.step x) hl hx, State.commit_log _ _ _, ?_⟩
    rw [State.commit_blk, blockAfter_step, nextRun_hold, outRecord_trigger]
    obtain h | h := Nat.eq_zero_or_pos s.blk.hold
    · cases triggerOut s.cfg s.blk with
      | true => simp [holdNext_accepted h, h]
      | false => simp [holdNext_quiet h, h]
    · rw [holdNext_suppressed h, if_pos h]
  · exact ⟨_, exec_eq_next_commit (.reset x) hl hx, Block.zero_hold⟩

end Sys2Proof.Machine
end

section
/-! The frame transition (44_frame.md R181 to R185). -/

namespace Sys2Proof.Machine

/-- Settles O18: `STEP` commits and records `frameNext` of the pre-step block and of the trigger it reports, and each
case of R181 is one rule of `frameNext`; `RESET` commits the all-zero block. -/
theorem frameTransition : Obligations.FrameTransition := by
  intro s x hl hx
  constructor
  · refine ⟨_, _, exec_eq_next_commit (.step x) hl hx, State.commit_log _ _ _, ?_⟩
    simp only [State.commit_blk, blockAfter_step, nextRun_fActive, nextRun_fIndex, nextRun_fId, outRecord_trigger,
      outRecord_frameStart]
    refine ⟨fun hidle htrig => ?opens, fun hact hlt => ?advances, fun hact hle => ?ends, fun hidle htrig => ?idles⟩
    case opens => simp [htrig, frameNext_open hidle]
    case advances => simp [frameNext_advance hact hlt]
    case ends => simp [frameNext_end hact hle.not_gt]
    case idles => simp [htrig, frameNext_idle hidle]
  · exact ⟨_, exec_eq_next_commit (.reset x) hl hx, Block.zero_fActive, Block.zero_fIndex, Block.zero_fId⟩

end Sys2Proof.Machine
end

section
/-! The conditioner's ranges (47_external_collaborators.md R221, R222). -/

namespace Sys2Proof.Machine

/-- Between ordered limits, `clamp` lands between them (00_scope.md R12). -/
theorem clamp_mem_Icc (v : Int) {lo hi : Int} (h : lo ≤ hi) : lo ≤ clamp v lo hi ∧ clamp v lo hi ≤ hi :=
  ⟨le_min (le_max_right v lo) h, min_le_right _ _⟩

theorem cond1_signed {o : Options} (h : o.unsigned14 = false) (v : Int) : cond1 o v = clamp v (-8192) 8191 := by
  simp [cond1, h]

theorem cond1_uncentred {o : Options} (h : o.unsigned14 = true) (hn : o.noCenter = true) (v : Int) :
    cond1 o v = clamp v 0 16383 := by simp [cond1, h, hn]

theorem cond1_recentred {o : Options} (h : o.unsigned14 = true) (hn : o.noCenter = false) (v : Int) :
    cond1 o v + 8192 = clamp v 0 16383 := by simp [cond1, h, hn]

@[simp] theorem condition_length (o : Options) (vs : List Int) : (condition o vs).length = vs.length :=
  List.length_map _

/-- The last clamp of the conditioner leaves a sample in range, whatever the baseline. -/
theorem condition_inSampleRange {o : Options} {vs : List Int} {x : Int} (h : x ∈ condition o vs) :
    InSampleRange x := by
  obtain ⟨v, -, rfl⟩ := List.mem_map.1 h
  exact clamp_mem_Icc _ (by decide)

/-- Settles O47: every mode of the conditioner ends its first stage in a clamp, and the last stage is one. -/
theorem conditionedSamplesInRange : Obligations.ConditionedSamplesInRange := by
  intro o vs
  refine ⟨fun x => condition_inSampleRange, condition_length o vs, fun h v => ?signed, fun h hn v => ?uncentred,
    fun h hn v => ?recentred⟩
  case signed => rw [cond1_signed h]; exact clamp_mem_Icc v (by decide)
  case uncentred => rw [cond1_uncentred h hn]; exact clamp_mem_Icc v (by decide)
  case recentred => rw [cond1_recentred h hn]; exact clamp_mem_Icc v (by decide)

end Sys2Proof.Machine
end

section
/-! The beats of `resetPrefix`, read back from their words (30_encoding.md R82, R91). -/

namespace Sys2Proof.Machine

theorem sext14_ofInt {x : Int} (h : InSampleRange x) : sext14 (BitVec.ofInt 14 x) = x := by
  obtain ⟨hlo, hhi⟩ := h
  rw [sext14_eq_toInt]
  exact BitVec.toInt_ofInt_eq_self (by decide) hlo (by norm_num; omega)

/-- The word of a beat with a sample in range decodes to that beat. -/
theorem decode_encode_of_inSampleRange {i : Instr} (h : InSampleRange i.sample) : decode (encode i) = i := by
  cases i with
  | step x =>
    obtain ⟨hr, hs⟩ := Laws.Format.step x
    rw [decode, hr, hs, sext14_ofInt h]
    rfl
  | reset x =>
    obtain ⟨hr, hs⟩ := Laws.Format.reset x
    rw [decode, hr, hs, sext14_ofInt h]
    rfl

/-- Beat `j` of `resetPrefix` carries value `j`, with `rst` on the first `n` beats only. -/
theorem resetPrefix_getElem? (n : Nat) (vs : List Int) (j : Nat) :
    (resetPrefix n vs)[j]? = vs[j]?.map fun v => if j < n then .reset v else .step v := by
  induction n, vs using resetPrefix.induct generalizing j with
  | case1 n => simp [resetPrefix]
  | case2 v vs ih => cases j <;> simp [resetPrefix, ih]
  | case3 n v vs ih => cases j <;> simp [resetPrefix, ih]

@[simp] theorem resetPrefix_length (n : Nat) (vs : List Int) : (resetPrefix n vs).length = vs.length := by
  induction n, vs using resetPrefix.induct with
  | case1 n => simp [resetPrefix]
  | case2 v vs ih => simp [resetPrefix, ih]
  | case3 n v vs ih => simp [resetPrefix, ih]

/-- The words of `resetPrefix` over samples in range give back the flag and the sample of every beat. -/
theorem resetPrefix_words_read {n j : Nat} {vs : List Int} (hv : ∀ x ∈ vs, InSampleRange x) (hj : j < vs.length) :
    resetOf ((resetPrefix n vs).map encode) j = decide (j < n) ∧
      sampleOf ((resetPrefix n vs).map encode) j = vs.getD j 0 := by
  have hword : ((resetPrefix n vs).map encode).getD j 0 = encode (if j < n then .reset vs[j] else .step vs[j]) := by
    rw [List.getD_eq_getElem?_getD, List.getElem?_map, resetPrefix_getElem?, List.getElem?_eq_getElem hj]
    rfl
  have hx : InSampleRange vs[j] := hv _ (List.getElem_mem hj)
  rw [resetOf, sampleOf, hword, List.getD_eq_getElem _ _ hj]
  by_cases h : j < n
  · simp [h, decode_encode_of_inSampleRange (i := .reset vs[j]) hx]
  · simp [h, decode_encode_of_inSampleRange (i := .step vs[j]) hx]

end Sys2Proof.Machine
end

section
/-! The steps of a run one by one: the beat each takes and the record each leaves (40_step.md R100, R105). -/

namespace Sys2Proof.Machine

theorem steps_input {k : Nat} {s t : State} (h : steps k s = .next t) : t.input = s.input.drop k := by
  induction k generalizing t with
  | zero => cases h; rfl
  | succ k ih =>
    obtain ⟨u, hu, ht⟩ := (steps_last k s t).1 h
    obtain ⟨w, ws, hw, -, rfl⟩ := (step_eq_next_iff u t).1 ht
    rw [← List.tail_drop, ← ih hu, hw]
    rfl

/-- The last step of a run takes the beat of its own number. -/
theorem steps_last_beat {k : Nat} {s t : State} (h : steps (k + 1) s = .next t) :
    ∃ u, steps k s = .next u ∧ k < s.input.length ∧
      t.blk = blockAfter u.cfg u.blk (decode (s.input.getD k 0)) ∧
      t.log = u.log ++ [outRecord u.cfg u.blk u.n (sampleOf s.input k)] := by
  obtain ⟨u, hu, ht⟩ := (steps_last k s t).1 h
  obtain ⟨w, ws, hw, -, rfl⟩ := (step_eq_next_iff u t).1 ht
  have hbeat : s.input[k]? = some w := by
    rw [← List.head?_drop, ← steps_input hu, hw]
    rfl
  have hget : s.input.getD k 0 = w := by simp [List.getD_eq_getElem?_getD, hbeat]
  refine ⟨u, hu, (List.getElem?_eq_some_iff.1 hbeat).1, ?_, ?_⟩
  · rw [hget]; rfl
  · rw [sampleOf, hget]; rfl

theorem steps_log_length {k : Nat} {s t : State} (h : steps k s = .next t) : t.log.length = s.log.length + k := by
  induction k generalizing t with
  | zero => cases h; rfl
  | succ k ih =>
    obtain ⟨u, hu, -, -, hlog⟩ := steps_last_beat h
    simp [hlog, ih hu, Nat.add_assoc]

/-- Record `n` of a run is `Out` of the block that the first `n` steps leave. -/
theorem steps_record {k n : Nat} {s t : State} {r : OutputRecord} (h : steps k s = .next t) (hs : s.log = [])
    (hr : t.log[n]? = some r) :
    ∃ u, steps n s = .next u ∧ r = outRecord u.cfg u.blk u.n (sampleOf s.input n) := by
  induction k generalizing t with
  | zero => cases h; simp [hs] at hr
  | succ k ih =>
    obtain ⟨u, hu, -, -, hlog⟩ := steps_last_beat h
    have hlen : u.log.length = k := by simpa [hs] using steps_log_length hu
    rw [hlog] at hr
    obtain hlt | rfl | hgt := lt_trichotomy n k
    · exact ih hu (by rwa [List.getElem?_append_left (hlen ▸ hlt)] at hr)
    · exact ⟨u, hu, by simpa [← hlen, eq_comm] using hr⟩
    · simp [hlen, hgt] at hr

/-- The step that takes a `RESET` beat leaves the all-zero block, whatever came before. -/
theorem steps_blk_of_last_reset {k : Nat} {s t : State} (h : steps (k + 1) s = .next t)
    (hr : resetOf s.input k = true) : t.blk = Block.zero := by
  obtain ⟨u, -, -, hblk, -⟩ := steps_last_beat h
  rw [resetOf] at hr
  cases hd : decode (s.input.getD k 0) with
  | step x => rw [hd] at hr; cases hr
  | reset x => rw [hblk, hd, blockAfter_reset]

end Sys2Proof.Machine
end

section
/-! A booted run and its leading resets (47_external_collaborators.md R228, 70_reset_and_hazards.md R265). -/

namespace Sys2Proof.Machine

/-- Boot ends in a new instance with the conditioned samples waiting, the leading `reset_samples` of them as resets. -/
theorem boot_eq_started {o : Options} {file : List (BitVec 8)} {s : State} (h : boot o file = .next s) :
    s = started (configOf o.setup)
      ((resetPrefix o.resetSamples (condition o (inputValues o file))).map encode) := by
  simp only [boot, construct] at h
  cases hf : firstIllegal o.setup with
  | none => simpa [hf, started, eq_comm] using h
  | some f => simp [hf] at h

/-- The comparator cannot fire while S2 and S3 are equal (43_trigger.md R167). -/
@[simp] theorem triggerOut_zero (c : Config) : triggerOut c Block.zero = false := by
  rw [Bool.eq_false_iff, Ne, triggerOut_iff]
  rintro ⟨-, hs1, -, hs3⟩
  exact hs3.not_gt hs1

/-- The record of the all-zero block reports no trigger and no frame. -/
theorem outRecord_zero_quiet (c : Config) (n : Nat) (x : Int) :
    (outRecord c Block.zero n x).trigger = false ∧ (outRecord c Block.zero n x).frameActive = false := by
  rw [outRecord_trigger, outRecord_frameActive, triggerOut_zero, frameNext_idle Block.zero_fActive]
  exact ⟨rfl, rfl⟩

/-- After any number of `RESET` beats, none included, the block is all-zero: it is so at the start, and the last
beat is a `RESET`. -/
theorem steps_blk_of_reset_prefix {n : Nat} {s u : State} (h : steps n s = .next u) (hs : s.blk = Block.zero)
    (hr : ∀ j < n, j < s.input.length → resetOf s.input j = true) : u.blk = Block.zero := by
  cases n with
  | zero => cases h; exact hs
  | succ m =>
    obtain ⟨-, -, hm, -, -⟩ := steps_last_beat h
    exact steps_blk_of_last_reset h (hr m (Nat.lt_succ_self m) hm)

/-- Settles O50: the beats are read back from the words of `resetPrefix`, and each record of the leading resets is `Out`
of an all-zero block. -/
theorem resetPrefixIsQuiet : Obligations.ResetPrefixIsQuiet := by
  intro o file s t k hboot hrun vs
  have hlen : s.input.length = vs.length := by rw [boot_eq_started hboot]; simp [started, vs]
  have hbeats : ∀ j < vs.length, resetOf s.input j = decide (j < o.resetSamples) ∧
      sampleOf s.input j = (condition o vs).getD j 0 := fun j hj => by
    rw [boot_eq_started hboot]
    exact resetPrefix_words_read (fun x => condition_inSampleRange) (by simpa using hj)
  have hblk : s.blk = Block.zero := by rw [boot_eq_started hboot]; rfl
  have hlog : s.log = [] := by rw [boot_eq_started hboot]; rfl
  refine ⟨hlen, hbeats, fun n r hr hn => ?_⟩
  obtain ⟨u, hu, rfl⟩ := steps_record hrun hlog hr
  have hzero : u.blk = Block.zero := steps_blk_of_reset_prefix hu hblk fun j hj hji => by
    simp [hbeats j (hlen ▸ hji), hj.trans hn]
  rw [hzero]
  exact outRecord_zero_quiet _ _ _

end Sys2Proof.Machine
end

section
/-! Runs: what every step keeps, the block after the last beat by its kind, and the records a run adds
(40_step.md R100, R105, 10_state.md R20). -/

namespace Sys2Proof

/-- A beat without the reset flag is `STEP` of its sample. -/
theorem Instr.eq_step_of_isReset {i : Instr} (h : i.isReset = false) : i = .step i.sample := by
  cases i with
  | step x => rfl
  | reset x => cases h

end Sys2Proof

namespace Sys2Proof.Machine

section started
variable (c : Config) (bs : List BeatWord)
@[simp] theorem started_cfg : (started c bs).cfg = c := rfl
@[simp] theorem started_blk : (started c bs).blk = Block.zero := rfl
@[simp] theorem started_n : (started c bs).n = 0 := rfl
@[simp] theorem started_input : (started c bs).input = bs := rfl
@[simp] theorem started_log : (started c bs).log = [] := rfl
end started

theorem step_cfg {s t : State} (h : step s = .next t) : t.cfg = s.cfg := by
  obtain ⟨w, ws, -, -, rfl⟩ := (step_eq_next_iff s t).1 h
  rfl

theorem step_n {s t : State} (h : step s = .next t) : t.n = s.n + 1 := by
  obtain ⟨w, ws, -, -, rfl⟩ := (step_eq_next_iff s t).1 h
  rfl

/-- A beat with the reset flag leaves the all-zero block. -/
theorem blockAfter_of_isReset {i : Instr} (h : i.isReset = true) (c : Config) (b : Block) :
    blockAfter c b i = Block.zero := by
  cases i with
  | step x => cases h
  | reset x => rfl

section steps
variable {k : Nat} {s t : State}

theorem steps_cfg (h : steps k s = .next t) : t.cfg = s.cfg := by
  induction k generalizing t with
  | zero => cases h; rfl
  | succ k ih =>
    obtain ⟨u, hu, ht⟩ := (steps_last k s t).1 h
    rw [step_cfg ht, ih hu]

theorem steps_n (h : steps k s = .next t) : t.n = s.n + k := by
  induction k generalizing t with
  | zero => cases h; rfl
  | succ k ih =>
    obtain ⟨u, hu, ht⟩ := (steps_last k s t).1 h
    rw [step_n ht, ih hu, Nat.add_assoc]

/-- A run of at least one step completes on an admitted instance only. -/
theorem steps_succ_legal (h : steps (k + 1) s = .next t) : legal s.cfg = true := by
  obtain ⟨u, hu, -⟩ := (steps_succ_eq_next_iff k s t).1 h
  obtain ⟨-, -, -, hl, -⟩ := (step_eq_next_iff s u).1 hu
  exact hl

/-- The last step of a run is `NextRun` when its beat carries no reset flag. -/
theorem steps_blk_of_last_step (h : steps (k + 1) s = .next t) (hr : resetOf s.input k = false) :
    ∃ u, steps k s = .next u ∧ t.blk = nextRun s.cfg u.blk (sampleOf s.input k) := by
  obtain ⟨u, hu, -, hblk, -⟩ := steps_last_beat h
  refine ⟨u, hu, ?_⟩
  rw [hblk, steps_cfg hu, Instr.eq_step_of_isReset hr, blockAfter_step]
  rfl

/-- A run only appends to the log, one record a step. -/
theorem steps_log_append (h : steps k s = .next t) : ∃ new, t.log = s.log ++ new ∧ new.length = k := by
  induction k generalizing t with
  | zero => cases h; exact ⟨[], by simp, rfl⟩
  | succ k ih =>
    obtain ⟨u, hu, -, -, hlog⟩ := steps_last_beat h
    obtain ⟨new, hnew, hlen⟩ := ih hu
    exact ⟨new ++ [_], by rw [hlog, hnew, List.append_assoc], by simp [hlen]⟩

theorem steps_new_length {new : List OutputRecord} (h : steps k s = .next t) (hlog : t.log = s.log ++ new) :
    new.length = k := by
  have hlen := steps_log_length h
  rw [hlog, List.length_append] at hlen
  omega

/-- Record `j` that a run adds is `Out` of the block its first `j` steps leave. -/
theorem steps_new_record {j : Nat} {new : List OutputRecord} {o : OutputRecord} (h : steps k s = .next t)
    (hlog : t.log = s.log ++ new) (ho : new[j]? = some o) :
    ∃ u, steps j s = .next u ∧ o = outRecord s.cfg u.blk (s.n + j) (sampleOf s.input j) := by
  induction k generalizing t new with
  | zero =>
    obtain rfl : new = [] := List.length_eq_zero_iff.1 (steps_new_length h hlog)
    simp at ho
  | succ k ih =>
    obtain ⟨u, hu, -, -, hlast⟩ := steps_last_beat h
    obtain ⟨old, hold, hlen⟩ := steps_log_append hu
    rw [hlog, hold, List.append_assoc, List.append_cancel_left_eq] at hlast
    subst hlast
    obtain hlt | rfl | hgt := lt_trichotomy j k
    · exact ih hu hold (by rwa [List.getElem?_append_left (hlen ▸ hlt)] at ho)
    · refine ⟨u, hu, ?_⟩
      rw [← steps_cfg hu, ← steps_n hu]
      simpa [← hlen, eq_comm] using ho
    · simp [hlen, hgt] at ho

end steps

/-- Record `n` of a new instance's run is `Out` of the block its first `n` steps leave. -/
theorem started_record {c : Config} {bs : List BeatWord} {u n : Nat} {s : State} {o : OutputRecord}
    (h : steps u (started c bs) = .next s) (ho : s.log[n]? = some o) :
    ∃ v, steps n (started c bs) = .next v ∧ o = outRecord c v.blk n (sampleOf bs n) := by
  simpa using steps_new_record h (List.nil_append s.log).symm ho

/-- Settles O27, by induction on the number of steps. -/
theorem configurationNeverChanges : Obligations.ConfigurationNeverChanges := fun _ _ _ => steps_cfg

/-- Settles O28: the run exists, and each clause is one law of runs. -/
theorem runTakesItsBeats : Obligations.RunTakesItsBeats := by
  intro k s hl hk
  obtain ⟨t, ht⟩ := steps_exists k hl hk
  obtain ⟨new, hnew, -⟩ := steps_log_append ht
  exact ⟨t, ht, steps_input ht, steps_n ht, steps_log_length ht, by rw [hnew, List.take_left]⟩

end Sys2Proof.Machine
end

section
/-! The epoch and the epoch-masked sample from one step to the next (00_scope.md R16). -/

namespace Sys2Proof.Machine

variable {bs : List BeatWord} {n : Nat} {j : Int}

theorem epochStart_le (bs : List BeatWord) (n : Nat) : epochStart bs n ≤ n := by
  induction n with
  | zero => exact le_rfl
  | succ n ih => rw [epochStart]; split_ifs <;> omega

theorem epochStart_succ_of_reset (h : resetOf bs n = true) : epochStart bs (n + 1) = n + 1 := by
  simp [epochStart, h]

theorem epochStart_succ_of_step (h : resetOf bs n = false) : epochStart bs (n + 1) = epochStart bs n := by
  simp [epochStart, h]

theorem masked_eq_zero_before_epoch (h : j < epochStart bs n) : masked bs n j = 0 :=
  if_neg fun hj => absurd hj.1 h.not_ge

theorem masked_eq_zero_of_ge (h : (n : Int) ≤ j) : masked bs n j = 0 :=
  if_neg fun hj => absurd hj.2.1 h.not_gt

/-- At the first step of an epoch nothing is remembered. -/
theorem masked_eq_zero_at_epoch (h : epochStart bs n = n) : masked bs n j = 0 := by
  obtain hj | hj := lt_or_ge j n
  · exact masked_eq_zero_before_epoch (by rwa [h])
  · exact masked_eq_zero_of_ge hj

/-- Within one epoch what is remembered of an earlier step does not change. -/
theorem masked_of_same_epoch {n' : Nat} (h : epochStart bs n = epochStart bs n') (hj : j < n) (hj' : j < n') :
    masked bs n j = masked bs n' j := by
  simp [masked, h, hj, hj']

theorem masked_succ_old (h : resetOf bs n = false) (hj : j < n) : masked bs (n + 1) j = masked bs n j :=
  masked_of_same_epoch (epochStart_succ_of_step h) (by omega) hj

/-- An ordinary step adds its own sample to what is remembered. -/
theorem masked_succ_new (h : resetOf bs n = false) : masked bs (n + 1) n = sampleOf bs n := by
  have he : (epochStart bs n : Int) ≤ n := by exact_mod_cast epochStart_le bs n
  simp [masked, epochStart_succ_of_step h, h, he]

/-- A remembered value other than 0 is a sample of the epoch. -/
theorem masked_ne_zero (h : masked bs n j ≠ 0) :
    (epochStart bs n : Int) ≤ j ∧ j < n ∧ masked bs n j = sampleOf bs j.toNat := by
  unfold masked at h ⊢
  split_ifs at h ⊢ with hj
  · exact ⟨hj.1, hj.2.1, rfl⟩
  · exact absurd rfl h

/-- What the all-zero block meets at the start of an epoch and every ordinary step keeps holds of the block before every
step of a new instance's run. -/
theorem started_induction {c : Config} {P : Nat → Block → Prop} (hzero : ∀ n, epochStart bs n = n → P n Block.zero)
    (hstep : ∀ n b, P n b → resetOf bs n = false → P (n + 1) (nextRun c b (sampleOf bs n))) {s : State}
    (h : steps n (started c bs) = .next s) : P n s.blk := by
  induction n generalizing s with
  | zero => cases h; exact hzero 0 rfl
  | succ n ih =>
    cases hr : resetOf bs n with
    | false =>
      obtain ⟨u, hu, hblk⟩ := steps_blk_of_last_step h hr
      rw [hblk]
      exact hstep n u.blk (ih hu) hr
    | true =>
      rw [steps_blk_of_last_reset h hr]
      exact hzero (n + 1) (epochStart_succ_of_reset hr)

end Sys2Proof.Machine
end

section
/-! The closed form of the datapath over every stream (41_fir.md R125, 42_xcorr_chain.md R145). -/

namespace Sys2Proof.Machine

/-- `Σ_{k=i}^{31} COEFF[k] · x̂_n(m − 2(k − i))`: what taps `i` to 31 have gathered when tap `i` took sample `m`. -/
def tapHistory (c : Config) (bs : List BeatWord) (n i : Nat) (m : Int) : Int :=
  ∑ k ∈ Finset.Ico i 32, coeffAt c k * masked bs n (m - 2 * ((k : Int) - i))

section tapHistory
variable {c : Config} {bs : List BeatWord} {n i : Nat} {m : Int}

@[simp] theorem tapHistory_end : tapHistory c bs n 32 m = 0 := by simp [tapHistory]

theorem tapHistory_eq_zero_at_epoch (h : epochStart bs n = n) : tapHistory c bs n i m = 0 :=
  Finset.sum_eq_zero fun k _ => by rw [masked_eq_zero_at_epoch h, mul_zero]

/-- Tap `i` adds its own product to what the next tap gathered two samples earlier. -/
theorem tapHistory_eq_add (hi : i < 32) :
    tapHistory c bs n i m = coeffAt c i * masked bs n m + tapHistory c bs n (i + 1) (m - 2) := by
  rw [tapHistory, Finset.sum_eq_sum_Ico_succ_bot hi, sub_self, mul_zero, sub_zero, tapHistory]
  refine congrArg₂ _ rfl (Finset.sum_congr rfl fun k _ => ?_)
  rw [show m - 2 * ((k : Int) - i) = m - 2 - 2 * ((k : Int) - (i + 1 : Nat)) by push_cast; ring]

/-- An ordinary step changes nothing gathered up to an earlier sample. -/
theorem tapHistory_succ_old (h : resetOf bs n = false) (hm : m < n) :
    tapHistory c bs (n + 1) i m = tapHistory c bs n i m := by
  refine Finset.sum_congr rfl fun k hk => ?_
  have hik : i ≤ k := (Finset.mem_Ico.1 hk).1
  rw [masked_succ_old h (by omega)]

theorem correlation_eq_tapHistory : correlation c bs n m = tapHistory c bs n 0 (m - 4) := by
  rw [correlation, tapHistory, Finset.range_eq_Ico]
  refine Finset.sum_congr rfl fun k _ => ?_
  rw [show m - 2 * (k : Int) - 4 = m - 4 - 2 * ((k : Int) - (0 : Nat)) by push_cast; ring]

end tapHistory

/-- The datapath registers before step `n` in closed form. -/
structure DatapathClosedForm (c : Config) (bs : List BeatWord) (n : Nat) (b : Block) : Prop where
  rRead : ∀ i < 32, b.rRead i = tapHistory c bs n i ((n : Int) - 2)
  d1Read : ∀ i < 32, b.d1Read i = tapHistory c bs n i ((n : Int) - 2)
  d0Read : ∀ i < 32, b.d0Read i = tapHistory c bs n i ((n : Int) - 1)
  s0 : b.s0 = correlation c bs n ((n : Int) + 1)
  s1 : b.s1 = correlation c bs n n
  s2 : b.s2 = correlation c bs n ((n : Int) - 1)
  s3 : b.s3 = correlation c bs n ((n : Int) - 2)

section DatapathClosedForm
variable {c : Config} {bs : List BeatWord} {n : Nat} {b : Block}

/-- The all-zero block opens an epoch. -/
theorem DatapathClosedForm.zero (h : epochStart bs n = n) : DatapathClosedForm c bs n Block.zero := by
  constructor <;> intros <;> simp [correlation_eq_tapHistory, tapHistory_eq_zero_at_epoch h]

/-- The hardwired `r[32]` is in closed form too. -/
theorem DatapathClosedForm.rRead_succ (hb : DatapathClosedForm c bs n b) {i : Nat} (hi : i < 32) :
    b.rRead (i + 1) = tapHistory c bs n (i + 1) ((n : Int) - 2) := by
  obtain hlt | rfl : i + 1 < 32 ∨ i = 31 := by omega
  · exact hb.rRead _ hlt
  · simp

/-- An ordinary step keeps the closed form: every register takes its neighbour's value of the step before. -/
theorem DatapathClosedForm.nextRun (hb : DatapathClosedForm c bs n b) (hr : resetOf bs n = false) :
    DatapathClosedForm c bs (n + 1) (nextRun c b (sampleOf bs n)) := by
  have old {i : Nat} {m m' : Int} (hm : m < n) (h : m = m') :
      tapHistory c bs n i m = tapHistory c bs (n + 1) i m' := by
    rw [← h, tapHistory_succ_old hr hm]
  constructor
  case rRead => intro i hi; rw [nextRun_rRead, hb.d0Read i hi]; exact old (by omega) (by push_cast; ring)
  case d1Read => intro i hi; rw [nextRun_d1Read, hb.d0Read i hi]; exact old (by omega) (by push_cast; ring)
  case d0Read =>
    intro i hi
    have hn : ((n + 1 : Nat) : Int) - 1 = n := by push_cast; ring
    rw [nextRun_d0Read _ _ _ hi, tapSum_eq, hb.rRead_succ hi, hn, tapHistory_eq_add hi, masked_succ_new hr,
      tapHistory_succ_old hr (by omega)]
  case s0 =>
    rw [nextRun_s0, hb.rRead 0 (by omega), correlation_eq_tapHistory]
    exact old (by omega) (by push_cast; ring)
  all_goals
    simp only [nextRun_s1, nextRun_s2, nextRun_s3, hb.s0, hb.s1, hb.s2, correlation_eq_tapHistory]
    exact old (by omega) (by push_cast; ring)

end DatapathClosedForm

/-- The datapath of a new instance's run is in closed form before every step. -/
theorem started_datapathClosedForm {c : Config} {bs : List BeatWord} {n : Nat} {s : State}
    (h : steps n (started c bs) = .next s) : DatapathClosedForm c bs n s.blk :=
  started_induction (fun _ => .zero) (fun _ _ => .nextRun) h

/-- Settles O32: the invariant of the run, with `r` and `d1` two samples and `d0` one sample behind. -/
theorem firClosedForm : Obligations.FirClosedForm := by
  intro c bs u s h i hi
  have hb := started_datapathClosedForm h
  have hlag : tapHistory c bs u i ((u : Int) - 2) =
      ∑ k ∈ Finset.Ico i 32, coeffAt c k * masked bs u ((u : Int) - 2 * ((k : Int) - i + 1)) :=
    Finset.sum_congr rfl fun k _ => by
      rw [show (u : Int) - 2 - 2 * ((k : Int) - i) = u - 2 * ((k : Int) - i + 1) by ring]
  exact ⟨(hb.rRead i hi).trans hlag, (hb.d1Read i hi).trans hlag, hb.d0Read i hi⟩

/-- Settles O33: the chain is in closed form before every step, and a record reports the `S1` before its step. -/
theorem correlationClosedForm : Obligations.CorrelationClosedForm := by
  intro c bs u s h
  have hb := started_datapathClosedForm h
  refine ⟨fun n o ho => ?_, hb.s0, hb.s1, hb.s2, hb.s3⟩
  obtain ⟨v, hv, rfl⟩ := started_record h ho
  exact (started_datapathClosedForm hv).s1

end Sys2Proof.Machine
end

section
/-! What follows from the closed form: fill latencies, a lone sample, and an old one (41_fir.md R128,
43_trigger.md R166, R168, 60_exceptions.md R245, 70_reset_and_hazards.md R268, R275). -/

namespace Sys2Proof.Machine

section correlation
variable {c : Config} {bs : List BeatWord} {n m : Nat} {j : Int}

/-- The network needs four steps of an epoch before anything shows (70_reset_and_hazards.md R268). -/
theorem correlation_eq_zero_of_fill (h : j < epochStart bs n + 4) : correlation c bs n j = 0 :=
  Finset.sum_eq_zero fun k _ => by rw [masked_eq_zero_before_epoch (by omega), mul_zero]

/-- A correlation other than 0 has a tap and a sample other than 0 that meet in it. -/
theorem correlation_ne_zero (h : correlation c bs n j ≠ 0) :
    ∃ k < 32, coeffAt c k ≠ 0 ∧ masked bs n (j - 2 * k - 4) ≠ 0 := by
  obtain ⟨k, hk, hne⟩ := Finset.exists_ne_zero_of_sum_ne_zero h
  exact ⟨k, Finset.mem_range.1 hk, left_ne_zero_of_mul hne, right_ne_zero_of_mul hne⟩

/-- In a stream with one non-zero sample nothing else is remembered. -/
theorem eq_of_masked_ne_zero (hx : ∀ i, i ≠ m → sampleOf bs i = 0) (h : masked bs n j ≠ 0) : j = m := by
  obtain ⟨hlo, -, hval⟩ := masked_ne_zero h
  by_contra hj
  exact h (hval.trans (hx _ (by omega)))

/-- Without a reset there is one epoch. -/
theorem epochStart_eq_zero (hr : ∀ i, resetOf bs i = false) (n : Nat) : epochStart bs n = 0 := by
  induction n with
  | zero => rfl
  | succ n ih => rw [epochStart_succ_of_step (hr n), ih]

/-- Without a reset every earlier sample is remembered. -/
theorem masked_of_no_reset (hr : ∀ i, resetOf bs i = false) (h : m < n) : masked bs n m = sampleOf bs m := by
  simp [masked, epochStart_eq_zero hr, hr, h]

/-- A lone sample shows `2k + 4` steps later with coefficient `k`. -/
theorem correlation_of_lone_sample (hr : ∀ i, resetOf bs i = false) (hx : ∀ i, i ≠ m → sampleOf bs i = 0)
    {k : Nat} (hk : k < 32) (hn : n = m + 2 * k + 4) : correlation c bs n n = coeffAt c k * sampleOf bs m := by
  have hterm : masked bs n ((n : Int) - 2 * k - 4) = sampleOf bs m := by
    rw [← masked_of_no_reset hr (show m < n by omega)]
    exact congrArg _ (by omega)
  rw [correlation, Finset.sum_eq_single_of_mem k (Finset.mem_range.2 hk), hterm]
  intro k' _ hne
  by_contra hprod
  have := eq_of_masked_ne_zero hx (right_ne_zero_of_mul hprod)
  omega

end correlation

/-- Settles O34: a correlation other than 0 has the lone sample meeting a tap, which fixes the step number. -/
theorem impulseResponse : Obligations.ImpulseResponse := by
  intro c bs u m s h hr hx n o ho
  rw [(correlationClosedForm c bs u s h).1 n o ho]
  refine ⟨fun k hk hn => correlation_of_lone_sample hr hx hk hn, fun hno => ?_⟩
  by_contra hne
  obtain ⟨k, hk, -, hmask⟩ := correlation_ne_zero hne
  have := eq_of_masked_ne_zero hx hmask
  exact hno k hk (by omega)

section forget
variable {c : Config} {bs bs' : List BeatWord} {m : Nat}

theorem epochStart_congr (h : ∀ i, resetOf bs i = resetOf bs' i) (n : Nat) : epochStart bs n = epochStart bs' n := by
  induction n with
  | zero => rfl
  | succ n ih => rw [epochStart, epochStart, h, ih]

/-- Streams that differ in the sample of beat `m` only agree on the history of every later sample. -/
theorem tapHistory_congr (hbeat : ∀ i, i ≠ m → bs.getD i 0 = bs'.getD i 0) (hr : resetOf bs m = resetOf bs' m)
    {n i : Nat} {j : Int} (hj : (m : Int) + 62 < j) : tapHistory c bs n i j = tapHistory c bs' n i j := by
  have hreset (l : Nat) : resetOf bs l = resetOf bs' l := by
    obtain rfl | hl := eq_or_ne l m
    · exact hr
    · rw [resetOf, resetOf, hbeat l hl]
  refine Finset.sum_congr rfl fun k hk => ?_
  have hk32 : k < 32 := (Finset.mem_Ico.1 hk).2
  have hlater : (j - 2 * ((k : Int) - i)).toNat ≠ m := by omega
  simp only [masked, epochStart_congr hreset, hreset, sampleOf, hbeat _ hlater]

end forget

/-- Settles O35: the lags of the closed form are at most 64 steps. -/
theorem networkForgetsOldSample : Obligations.NetworkForgetsOldSample := by
  intro c bs bs' u m s s' h h' hbeat hr hu
  have hb := started_datapathClosedForm h
  have hb' := started_datapathClosedForm h'
  have hlag2 (i : Nat) := tapHistory_congr (c := c) (n := u) (i := i) hbeat hr (j := (u : Int) - 2) (by omega)
  have hlag1 (i : Nat) := tapHistory_congr (c := c) (n := u) (i := i) hbeat hr (j := (u : Int) - 1) (by omega)
  refine ⟨vector_ext_reads fun i hi => ?_, vector_ext_reads fun i hi => ?_, vector_ext_reads fun i hi => ?_⟩
  · simpa [Block.rRead, hi] using (hb.rRead i hi).trans ((hlag2 i).trans (hb'.rRead i hi).symm)
  · simpa [Block.d0Read, hi] using (hb.d0Read i hi).trans ((hlag1 i).trans (hb'.d0Read i hi).symm)
  · simpa [Block.d1Read, hi] using (hb.d1Read i hi).trans ((hlag2 i).trans (hb'.d1Read i hi).symm)

/-- The trigger that record `n` of a new instance's run reports, in closed form. -/
theorem started_trigger_iff {c : Config} {bs : List BeatWord} {u n : Nat} {s : State} {o : OutputRecord}
    (h : steps u (started c bs) = .next s) (ho : s.log[n]? = some o) :
    ∃ v, steps n (started c bs) = .next v ∧ o.trigger = triggerOut c v.blk ∧
      (o.trigger = true ↔ v.blk.hold = 0 ∧
      c.threshold < proc c (correlation c bs n n) ∧ c.threshold < proc c (correlation c bs n ((n : Int) - 1)) ∧
      proc c (correlation c bs n ((n : Int) - 2)) ≤ c.threshold) := by
  obtain ⟨v, hv, rfl⟩ := started_record h ho
  have hb := started_datapathClosedForm hv
  exact ⟨v, hv, rfl, by rw [outRecord_trigger, triggerOut_iff, hb.s1, hb.s2, hb.s3]⟩

/-- Settles O37: record `n` is that of the state after `n` steps. -/
theorem triggerClosedForm : Obligations.TriggerClosedForm := by
  intro c bs n h s o hn hs ho
  obtain ⟨v, hv, -, htrig⟩ := started_trigger_iff ((steps_last n _ s).2 ⟨h, hn, hs⟩) ho
  obtain rfl : h = v := by simpa [hn] using hv
  exact htrig

/-- Settles O44: with a threshold that is not negative both newest correlations differ from 0, and one product cannot
show at two steps. -/
theorem isolatedPointNeverTriggers : Obligations.IsolatedPointNeverTriggers := by
  intro c bs u k₀ j₀ s h hT hc hx o ho
  obtain ⟨n, hn⟩ := List.mem_iff_getElem?.1 ho
  obtain ⟨v, -, -, htrig⟩ := started_trigger_iff h hn
  have hmeets {j : Int} (hj : c.threshold < proc c (correlation c bs n j)) : j = j₀ + 2 * k₀ + 4 := by
    have hne : correlation c bs n j ≠ 0 := fun h0 => by rw [h0, proc_zero] at hj; omega
    obtain ⟨k, hk, hcoeff, hmask⟩ := correlation_ne_zero hne
    obtain rfl : k = k₀ := by_contra fun hne => hcoeff (hc k hk hne)
    have := eq_of_masked_ne_zero hx hmask
    omega
  rw [Bool.eq_false_iff, Ne, htrig]
  rintro ⟨-, h1, h2, -⟩
  have := hmeets h1
  have := hmeets h2
  omega

end Sys2Proof.Machine
end

section
/-! The delay line over every stream (45_raw_delay.md R203). -/

namespace Sys2Proof.Machine

/-- The ring before step `n`: slot `wp + i`, counted round the ring, holds the sample of `DATA_DELAY + 1 − i` steps
ago. -/
structure RingClosedForm (c : Config) (bs : List BeatWord) (n : Nat) (b : Block) : Prop where
  wpRange : b.wp < ringLen c
  wf : Memory.wf b.ring = true
  read : ∀ i, 1 ≤ i → i ≤ c.dataDelay →
    Memory.read b.ring ((b.wp + i) % ringLen c) = masked bs n ((n : Int) + i - ringLen c)

theorem ringLen_pos (c : Config) : 0 < ringLen c := Nat.succ_pos _

/-- Fewer than `RING_LEN` slots on from a slot of the ring is another slot. -/
theorem add_mod_ne_self {L wp i : Nat} (hwp : wp < L) (h1 : 1 ≤ i) (hi : i < L) : (wp + i) % L ≠ wp := by
  obtain h | h := lt_or_ge (wp + i) L
  · rw [Nat.mod_eq_of_lt h]; omega
  · rw [Nat.mod_eq_sub_mod h, Nat.mod_eq_of_lt (by omega)]; omega

section RingClosedForm
variable {c : Config} {bs : List BeatWord} {n : Nat} {b : Block}

theorem RingClosedForm.zero (h : epochStart bs n = n) : RingClosedForm c bs n Block.zero where
  wpRange := ringLen_pos c
  wf := rfl
  read := fun i _ _ => by simp [masked_eq_zero_at_epoch h]

/-- An ordinary step writes its own sample last and brings every other one a slot nearer. -/
theorem RingClosedForm.nextRun (hb : RingClosedForm c bs n b) (hr : resetOf bs n = false) :
    RingClosedForm c bs (n + 1) (nextRun c b (sampleOf bs n)) where
  wpRange := Nat.mod_lt _ (ringLen_pos c)
  wf := Memory.wf_write hb.wf _ _
  read := fun i h1 hi => by
    have hslot : ((b.wp + 1) % ringLen c + i) % ringLen c = (b.wp + (i + 1)) % ringLen c := by
      rw [Nat.mod_add_mod, Nat.add_assoc, Nat.add_comm 1 i]
    have hlag : ((n + 1 : Nat) : Int) + i - ringLen c = n + (i + 1 : Nat) - ringLen c := by push_cast; ring
    have hL : ringLen c = c.dataDelay + 1 := rfl
    rw [nextRun_ring, nextRun_wp, ← hL, hslot, hlag]
    obtain hlt | rfl := hi.lt_or_eq
    · rw [Memory.read_write_other _ _ (add_mod_ne_self hb.wpRange (by omega) (by omega)),
        hb.read (i + 1) (by omega) hlt, masked_succ_old hr (by omega)]
    · rw [← hL, Nat.add_mod_right, Nat.mod_eq_of_lt hb.wpRange, Memory.read_write_same hb.wf, add_sub_cancel_right,
        masked_succ_new hr]

/-- The delayed sample of a step, read from a ring in closed form. -/
theorem RingClosedForm.rawDelayOut (hb : RingClosedForm c bs n b) (x : Int) :
    rawDelayOut c b x = if c.dataDelay = 0 then x else masked bs n ((n : Int) - c.dataDelay) := by
  obtain ⟨h0, hout⟩ | ⟨h0, hout⟩ := rawDelayOut_cases c b x
  · rw [hout, if_pos h0]
  · rw [hout, if_neg h0]
    refine (hb.read 1 le_rfl (by omega)).trans (congrArg _ ?_)
    rw [ringLen]; push_cast; ring

end RingClosedForm

/-- The ring of a new instance's run is in closed form before every step. -/
theorem started_ringClosedForm {c : Config} {bs : List BeatWord} {n : Nat} {s : State}
    (h : steps n (started c bs) = .next s) : RingClosedForm c bs n s.blk :=
  started_induction (fun _ => .zero) (fun _ _ => .nextRun) h

/-- Settles O36: a record reads the ring before its step, which is in closed form. -/
theorem rawDelayedClosedForm : Obligations.RawDelayedClosedForm := by
  intro c bs u s h n o ho
  obtain ⟨v, hv, rfl⟩ := started_record h ho
  exact (started_ringClosedForm hv).rawDelayOut _

/-- Settles O41: within the fill latency the closed forms see no sample of the epoch. -/
theorem epochFillLatencies : Obligations.EpochFillLatencies := by
  intro c bs u s h n o ho
  obtain ⟨v, -, -, htrig⟩ := started_trigger_iff h ho
  have hfill {j : Int} (hj : j < epochStart bs n + 4) : proc c (correlation c bs n j) = 0 := by
    rw [correlation_eq_zero_of_fill hj, proc_zero]
  refine ⟨fun hn => ?noCorrelation, fun hD hn => ?noDelayed, fun ht => ?noTrigger, fun ht hT => ?noNegative⟩
  case noCorrelation =>
    obtain ⟨v, hv, rfl⟩ := started_record h ho
    have hs1 : v.blk.s1 = 0 := by
      rw [(started_datapathClosedForm hv).s1, correlation_eq_zero_of_fill (by exact_mod_cast hn)]
    simp [hs1]
  case noDelayed =>
    rw [rawDelayedClosedForm c bs u s h n o ho, if_neg (by omega), masked_eq_zero_before_epoch (by omega)]
  case noTrigger =>
    obtain ⟨-, -, h2, h3⟩ := htrig.1 ht
    by_contra hn
    rw [hfill (by omega)] at h2 h3
    omega
  case noNegative =>
    obtain ⟨-, -, -, h3⟩ := htrig.1 ht
    by_contra hn
    rw [hfill (by omega)] at h3
    omega

end Sys2Proof.Machine
end

section
/-! The dead time and the least distance of two triggers (43_trigger.md R165, 60_exceptions.md R245). -/

namespace Sys2Proof.Machine

/-- A step takes at most one from the dead time. -/
theorem hold_le_holdNext_add_one (c : Config) (b : Block) (trig : Bool) : b.hold ≤ holdNext c b trig + 1 := by
  unfold holdNext; split_ifs <;> omega

/-- An accepted trigger leaves the whole dead time to wait. -/
theorem nextRun_hold_of_trigger {c : Config} {b : Block} (h : triggerOut c b = true) (x : Int) :
    (nextRun c b x).hold = c.holdoff := by
  rw [nextRun_hold, h, holdNext_accepted ((triggerOut_iff c b).1 h).1]

/-- A suppressed detector reports no trigger. -/
theorem triggerOut_of_hold_pos {c : Config} {b : Block} (h : 0 < b.hold) : triggerOut c b = false := by
  rw [Bool.eq_false_iff, Ne, triggerOut_iff]
  exact fun ht => h.ne' ht.1

theorem epochStart_mono (bs : List BeatWord) : Monotone (epochStart bs) :=
  monotone_nat_of_le_succ fun n => by
    rw [epochStart]
    split_ifs
    · exact (epochStart_le bs n).trans (Nat.le_succ n)
    · exact le_rfl

/-- Within one epoch no reset falls. -/
theorem resetOf_of_same_epoch {bs : List BeatWord} {k k' : Nat} (h : epochStart bs k = epochStart bs k') {j : Nat}
    (hkj : k ≤ j) (hj : j < k') : resetOf bs j = false := by
  have hmono : epochStart bs (j + 1) ≤ epochStart bs k' := epochStart_mono bs hj
  by_contra hr
  rw [Bool.not_eq_false] at hr
  rw [epochStart_succ_of_reset hr, ← h] at hmono
  have := epochStart_le bs k
  omega

/-- Within one epoch a correlation keeps its value. -/
theorem correlation_of_same_epoch {c : Config} {bs : List BeatWord} {n n' : Nat} {j : Int}
    (h : epochStart bs n = epochStart bs n') (hj : j < n + 4) (hj' : j < n' + 4) :
    correlation c bs n j = correlation c bs n' j :=
  Finset.sum_congr rfl fun k _ => by rw [masked_of_same_epoch h (by omega) (by omega)]

/-- `m` steps after the step of a trigger, at least the dead time less `m` is left. -/
theorem holdoff_le_hold_add {s v w : State} {k m : Nat} (hv : steps k s = .next v)
    (ht : triggerOut s.cfg v.blk = true) (hw : steps (k + 1 + m) s = .next w)
    (hr : ∀ j, k ≤ j → j < k + 1 + m → resetOf s.input j = false) : s.cfg.holdoff ≤ w.blk.hold + m := by
  induction m generalizing w with
  | zero =>
    obtain ⟨u, hu, hblk⟩ := steps_blk_of_last_step hw (hr k le_rfl (by omega))
    obtain rfl : v = u := by simpa [hv] using hu
    rw [hblk, nextRun_hold_of_trigger ht]
    exact Nat.le_add_right _ _
  | succ m ih =>
    obtain ⟨u, hu, hblk⟩ := steps_blk_of_last_step hw (hr (k + 1 + m) (by omega) (by omega))
    have hbefore := ih hu fun j hkj hj => hr j hkj (by omega)
    have hstep := hold_le_holdNext_add_one s.cfg u.blk (triggerOut s.cfg u.blk)
    rw [hblk, nextRun_hold]
    omega

/-- Settles O40: the later trigger needs `hold = 0` and a correlation at or below the threshold two steps before it, and
the earlier one has left the dead time and two correlations above the threshold. -/
theorem minimumTriggerSpacing : Obligations.MinimumTriggerSpacing := by
  intro c bs u s h k k' o o' ho ho' hk hepoch ht ht'
  obtain ⟨v, hv, htrig, hiff⟩ := started_trigger_iff h ho
  obtain ⟨w, hw, -, hiff'⟩ := started_trigger_iff h ho'
  obtain ⟨-, habove, habove', -⟩ := hiff.1 ht
  obtain ⟨hhold, -, -, hbelow⟩ := hiff'.1 ht'
  constructor
  · by_contra hlt
    rw [← correlation_of_same_epoch hepoch (by omega) (by omega)] at hbelow
    obtain h1 | h2 : (k' : Int) - 2 = k - 1 ∨ (k' : Int) - 2 = k := by omega
    · rw [h1] at hbelow; omega
    · rw [h2] at hbelow; omega
  · have hsteps : steps (k + 1 + (k' - k - 1)) (started c bs) = .next w := by
      rwa [show k + 1 + (k' - k - 1) = k' by omega]
    have hleft := holdoff_le_hold_add hv (htrig ▸ ht) hsteps fun j hkj hj =>
      resetOf_of_same_epoch hepoch hkj (by omega)
    rw [hhold, started_cfg] at hleft
    omega

end Sys2Proof.Machine
end

section
/-! The beat word, both ways (30_encoding.md R81 to R87). -/

namespace Sys2Proof

theorem decode_isReset (w : BeatWord) : (decode w).isReset = w.getLsbD 14 := by
  unfold decode
  split <;> simp_all

/-- The sample field is the word's value below `B[14]`. -/
theorem sampleField_toNat (w : BeatWord) : (sampleField w).toNat = w.toNat % 2 ^ 14 := by
  simp [sampleField]

/-- Two words with one reset flag and one sample field are one word. -/
theorem beatWord_ext {w w' : BeatWord} (hr : w.getLsbD 14 = w'.getLsbD 14) (hs : sampleField w = sampleField w') :
    w = w' := by
  refine BitVec.eq_of_getLsbD_eq fun j hj => ?_
  obtain hlt | rfl : j < 14 ∨ j = 14 := by omega
  · simpa [sampleField, hlt] using congrArg (·.getLsbD j) hs
  · exact hr

/-- The 14-bit word of a field's two's complement reading is the field. -/
theorem ofInt_sext14 (v : SampleField) : BitVec.ofInt 14 (sext14 v) = v := by
  rw [sext14_eq_toInt, BitVec.ofInt_toInt]

/-- The flag and the field of a beat's word (30_encoding.md R81). -/
theorem encode_fields (i : Instr) :
    (encode i).getLsbD 14 = i.isReset ∧ sampleField (encode i) = BitVec.ofInt 14 i.sample := by
  cases i with
  | step x => exact Laws.Format.step x
  | reset x => exact Laws.Format.reset x

theorem encode_decode (w : BeatWord) : encode (decode w) = w := by
  obtain ⟨hr, hs⟩ := encode_fields (decode w)
  refine beatWord_ext (hr.trans (decode_isReset w)) ?_
  rw [hs, decode_sample, ofInt_sext14]

/-- Settles O1: a word is its reset flag and its sample field, and the field is the sample's two's complement. -/
theorem decodeEncodeRoundTrip : Obligations.DecodeEncodeRoundTrip := by
  refine ⟨fun i hw => Machine.decode_encode_of_inSampleRange (i.wf_iff.1 hw), fun w => ⟨?_, encode_decode w⟩⟩
  exact (Instr.wf_iff _).2 (decode_sample_range w)

/-- Settles O2: `sext_14` on the value of the sample field, whose sign bit is set from `2^13` on. -/
theorem decodeReadsBeatFields : Obligations.DecodeReadsBeatFields := by
  intro w
  refine ⟨decode_isReset w, ?_⟩
  have hsign : (sampleField w).getLsbD 13 = decide (2 ^ 13 ≤ (sampleField w).toNat) := by
    simpa [BitVec.msb_eq_getLsbD_last] using BitVec.msb_eq_decide (sampleField w)
  rw [decode_sample, sext14, hsign, ← sampleField_toNat]
  simp

/-- Settles O3, by evaluation. -/
theorem encodingExamplesDecode : Obligations.EncodingExamplesDecode := by
  unfold Obligations.EncodingExamplesDecode
  decide

/-- Settles O4: `beatOfNat` refuses exactly the numbers from `2^15` on. -/
theorem onlyBeatWordsDecode : Obligations.OnlyBeatWordsDecode := by
  intro nbits v
  by_cases h : v % 2 ^ nbits < 2 ^ 15
  · simp only [decodeTableWord, tableBeat, beatOfNat, if_pos h, Option.map_some]
  · simp only [decodeTableWord, tableBeat, beatOfNat, if_neg h, Option.map_none]

end Sys2Proof
end

section
/-! The stops of a beat and of a step, and construction (60_exceptions.md R241, 00_scope.md R10, R11). -/

namespace Sys2Proof.Machine

theorem refusal_of_illegal {s : State} {f : ConfigField} (h : illegalField s.cfg = some f) (x : Int) :
    refusal s x = some (.config f) := by
  simp [refusal, h]

theorem refusal_of_out_of_range {s : State} {x : Int} (hl : legal s.cfg = true) (hx : ¬ InSampleRange x) :
    refusal s x = some (.sample s.n x) := by
  simp [refusal, (legal_iff s.cfg).1 hl, hx]

/-- A beat is refused for the reason `refusal` gives. -/
theorem exec_of_refusal {i : Instr} {s : State} {why : Refusal} (h : refusal s i.sample = some why) :
    exec i s = .refused why := by
  cases i with
  | step x => simp only [exec, execStep, show refusal s x = _ from h]
  | reset x => simp only [exec, execReset, show refusal s x = _ from h]

/-- Settles O5. -/
theorem stepExecutesDecodedBeat : Obligations.StepExecutesDecodedBeat := fun _ _ _ => step_cons

/-- Settles O8: on an admitted instance the sample is the reason. -/
theorem outOfRangeSampleRefused : Obligations.OutOfRangeSampleRefused := fun _ _ hl hx =>
  ⟨exec_of_refusal (refusal_of_out_of_range hl hx), exec_of_refusal (refusal_of_out_of_range hl hx)⟩

/-- Settles O9: the configuration is the first reason looked for. -/
theorem illegalInstanceTakesNoStep : Obligations.IllegalInstanceTakesNoStep := fun i _ _ h =>
  exec_of_refusal (refusal_of_illegal h i.sample)

/-- Settles O6: without a beat a step faults, and with one it completes or is refused as the instance is
admitted or not. -/
theorem stepStopsExactlyHere : Obligations.StepStopsExactlyHere := by
  intro s
  cases hin : s.input with
  | nil => simp [step_nil hin, eq_comm]
  | cons w ws =>
    rw [step_cons hin]
    refine ⟨fun f => by simp [exec_ne_fault], fun why => ?_⟩
    cases hf : illegalField s.cfg with
    | none =>
      rw [exec_eq_next_commit (s := { s with input := ws }) _ ((legal_iff s.cfg).2 hf) (decode_sample_range w)]
      simp
    | some field =>
      rw [exec_of_refusal (refusal_of_illegal (s := { s with input := ws }) hf _)]
      simp [eq_comm]

/-- Construction tests the counts in the order of 00_scope.md R11 and then the bound of R10. -/
theorem firstIllegal_eq_none_iff (u : Setup) : firstIllegal u = none ↔
    u.coeff.length = 32 ∧ 1 ≤ u.frameLen ∧ 0 ≤ u.holdoff ∧ 0 ≤ u.pretrigger ∧ 0 ≤ u.dataDelay ∧
      withinBound u.accW u.coeff = true := by
  unfold firstIllegal
  split_ifs <;> simp_all

/-- The bound of 00_scope.md R10 over the integers. -/
theorem withinBound_iff {w : Nat} {l : List Int} (hl : l.length = 32) : withinBound w l = true ↔
    1 ≤ w ∧ 8192 * ∑ k ∈ Finset.range 32, |l.getD k 0| ≤ 2 ^ (w - 1) - 1 := by
  have hmass : (coeffMass l : Int) = ∑ k ∈ Finset.range 32, |l.getD k 0| := by
    rw [Finset.range_eq_Ico]
    exact coeffMass_eq_massFrom (c := { Config.atReset with coeff := l }) hl
  have hpow : 1 ≤ 2 ^ (w - 1) := Nat.one_le_two_pow
  rw [withinBound, Bool.and_eq_true_iff, decide_eq_true_iff, decide_eq_true_iff, ← hmass]
  zify [hpow]

/-- An admitted configuration seen as what was handed over is what was handed over. -/
theorem setupOf_configOf {u : Setup} (hF : 0 ≤ u.frameLen) (hH : 0 ≤ u.holdoff) (hP : 0 ≤ u.pretrigger)
    (hD : 0 ≤ u.dataDelay) : setupOf (configOf u) = u := by
  simp [setupOf, configOf, hF, hH, hP, hD]

/-- Settles O7: construction admits what `firstIllegal` passes and keeps it, since no count of it is negative. -/
theorem constructionAdmitsLegalSetups : Obligations.ConstructionAdmitsLegalSetups := by
  intro u ok
  have hok : firstIllegal u = none ↔ ok := by
    rw [firstIllegal_eq_none_iff]
    refine and_congr_right fun hlen => ?_
    rw [withinBound_iff hlen]
  refine ⟨fun h => ?_, fun h => ?_⟩
  · have hnone := hok.2 h
    obtain ⟨-, hF, hH, hP, hD, -⟩ := h
    have hlegal : legal (configOf u) = true := by
      rwa [legal_iff, illegalField, setupOf_configOf (by omega) hH hP hD]
    refine ⟨configOf u, by rw [construct, hnone], hlegal, rfl, rfl, Int.toNat_of_nonneg hH,
      Int.toNat_of_nonneg (by omega), Int.toNat_of_nonneg hP, Int.toNat_of_nonneg hD, rfl, rfl, rfl⟩
  · obtain ⟨f, hf⟩ := Option.ne_none_iff_exists'.1 fun hnone => h (hok.1 hnone)
    exact ⟨f, by rw [construct, hf]⟩

end Sys2Proof.Machine
end

section
/-! One beat: what it keeps, and the sub-blocks the earlier statements leave (40_step.md R101, R103, R109,
41_fir.md R123, 43_trigger.md R167, 44_frame.md R184, R186, R187, 45_raw_delay.md R201, R202). -/

namespace Sys2Proof.Machine

/-- Settles O11: a beat ends in one commit of the record `Out(σ, x)`. -/
theorem beatKeepsConfigAndPassesThrough : Obligations.BeatKeepsConfigAndPassesThrough := by
  intro i s hl hw
  exact ⟨_, _, exec_eq_next_commit i hl (i.wf_iff.1 hw), rfl, rfl, rfl, State.commit_log _ _ _, rfl, rfl⟩

/-- Settles O13: each tap stores its tap sum, which `tapSum_eq` gives without the bypass. -/
theorem zeroCoefficientBypassIsExact : Obligations.ZeroCoefficientBypassIsExact := by
  intro s x hl hx
  refine ⟨_, exec_eq_next_commit (.step x) hl hx, fun i hi => ?_⟩
  rw [State.commit_blk, blockAfter_step, nextRun_d0Read _ _ _ hi, tapSum_eq]

theorem frameTrigger_iff (c : Config) (f : FrameOut) :
    frameTrigger c f = true ↔ f.active = true ∧ f.index = c.pretrigger := by
  simp [frameTrigger]

/-- Settles O19: the record and the block take their frame fields from one `frameNext`. -/
theorem frameFieldsReportedAfterTransition : Obligations.FrameFieldsReportedAfterTransition := by
  intro s x hl hx
  exact ⟨_, _, exec_eq_next_commit (.step x) hl hx, State.commit_log _ _ _, rfl, rfl, rfl, frameTrigger_iff _ _⟩

/-- Settles O20: while a frame is active `frameNext` advances or ends it whatever the trigger. -/
theorem triggerWhileActiveIgnoredByFrame : Obligations.TriggerWhileActiveIgnoredByFrame := by
  intro s x hl hx hact htrig
  refine ⟨_, _, exec_eq_next_commit (.step x) hl hx, State.commit_log _ _ _, htrig, ?_⟩
  simp only [State.commit_blk, blockAfter_step, nextRun_hold_of_trigger htrig, nextRun_fId, nextRun_fActive,
    nextRun_fIndex, outRecord_frameStart]
  by_cases hi : s.blk.fIndex < s.cfg.frameLen - 1
  · simp [frameNext_advance hact hi, hi]
  · simp [frameNext_end hact hi, hi]

/-- Settles O21: the ring's laws of a write at `wp`. -/
theorem ringReadThenWrite : Obligations.RingReadThenWrite := by
  intro s x hl hx hwf
  refine ⟨_, _, exec_eq_next_commit (.step x) hl hx, State.commit_log _ _ _, ?_, ?_⟩
  · rw [outRecord_rawDelayed]
    rfl
  · simp only [State.commit_blk, blockAfter_step, nextRun_ring, nextRun_wp]
    exact ⟨Memory.read_write_same hwf _ _, fun k hk => Memory.read_write_other _ _ hk, trivial,
      Memory.wf_write hwf _ _⟩

/-- Settles O22: `RESET` commits the all-zero block. -/
theorem resetClearsEveryRegister : Obligations.ResetClearsEveryRegister := by
  intro s x hl hx
  refine ⟨_, exec_eq_next_commit (.reset x) hl hx, ?_⟩
  simp

/-- Settles O23: both kinds log `Out(σ, x)`. -/
theorem resetRecordIsStepRecord : Obligations.ResetRecordIsStepRecord := by
  intro s x hl hx
  exact ⟨_, _, exec_eq_next_commit (.step x) hl hx, exec_eq_next_commit (.reset x) hl hx, rfl⟩

/-- With `S2` and `S3` equal the comparator cannot fire. -/
theorem triggerOut_of_s2_eq_s3 {c : Config} {b : Block} (h : b.s2 = b.s3) : triggerOut c b = false := by
  rw [Bool.eq_false_iff, Ne, triggerOut_iff, h]
  rintro ⟨-, -, hs2, hs3⟩
  exact hs3.not_gt hs2

/-- Without a trigger no frame opens. -/
theorem frameNext_start_of_no_trigger (c : Config) (b : Block) : (frameNext c b false).start = false := by
  unfold frameNext; split_ifs <;> simp_all

/-- Settles O24: a chain of zeros has `S2 = S3`. -/
theorem zeroChainNeverTriggers : Obligations.ZeroChainNeverTriggers := by
  intro i s hl hw _ h2 h3
  have htrig : triggerOut s.cfg s.blk = false := triggerOut_of_s2_eq_s3 (h2.trans h3.symm)
  refine ⟨_, _, exec_eq_next_commit i hl (i.wf_iff.1 hw), State.commit_log _ _ _, htrig, ?_⟩
  rw [outRecord_frameStart, htrig, frameNext_start_of_no_trigger]

end Sys2Proof.Machine
end

section
/-! The invariant at construction and under every step (10_state.md R27 to R34, 41_fir.md R126, 20_memory.md R67). -/

namespace Sys2Proof.Machine

/-- The all-zero block meets the invariant in every admitted instance. -/
theorem inv_of_zero {s : State} (hl : legal s.cfg = true) (hb : s.blk = Block.zero) (hlog : s.log.length = s.n) :
    Inv s := by
  have hmass (i : Nat) : 0 ≤ 8192 * massFrom s.cfg i := mul_nonneg (by decide) (massFrom_nonneg s.cfg i)
  exact {
    admitted := hl
    sharedStage := by rw [hb]; rfl
    tapRange := fun i _ => by simpa [hb] using hmass i
    chainRange := by simpa [hb] using hmass 0
    holdRange := by simp [hb]
    frameActive := by simp [hb]
    frameIdle := by simp [hb]
    wpRange := by simp [hb, ringLen_pos]
    ringWf := by rw [hb]; rfl
    ringSlots := fun k _ => by simp [hb]
    ringSamples := fun k => by rw [hb, Block.zero_ring, Memory.read_nil]; decide
    logLength := hlog }

/-- Settles O25: construction gives the all-zero block and no record. -/
theorem invariantHoldsAtConstruction : Obligations.InvariantHoldsAtConstruction := by
  have hinit (c : Config) (hl : legal c = true) : Inv (State.initial c) := inv_of_zero hl rfl rfl
  exact ⟨hinit, hinit Config.atReset (by decide)⟩

section Inv
variable {s : State} {x : Int}

/-- `r` and `d1` are one array, and `r[32]` is 0: both within the mass of the taps from `i` on. -/
theorem Inv.rRead_range (h : Inv s) {i : Nat} (hi : i ≤ 32) : |s.blk.rRead i| ≤ 8192 * massFrom s.cfg i := by
  obtain hlt | rfl := hi.lt_or_eq
  · have hd1 : s.blk.rRead i = s.blk.d1Read i := by rw [Block.rRead, Block.d1Read, h.sharedStage]
    exact hd1 ▸ (h.tapRange i hlt).2
  · simp

/-- A tap sum stays within the mass of its taps (41_fir.md R126). -/
theorem Inv.tapSum_range (h : Inv s) (hx : InSampleRange x) {i : Nat} (hi : i < 32) :
    |tapSum s.cfg s.blk x i| ≤ 8192 * massFrom s.cfg i := by
  have hsample : |x| ≤ 8192 := abs_le.2 ⟨hx.1, hx.2.trans (by decide)⟩
  calc |tapSum s.cfg s.blk x i|
      = |coeffAt s.cfg i * x + s.blk.rRead (i + 1)| := by rw [tapSum_eq]
    _ ≤ |coeffAt s.cfg i| * |x| + |s.blk.rRead (i + 1)| := (abs_add_le _ _).trans_eq (by rw [abs_mul])
    _ ≤ |coeffAt s.cfg i| * 8192 + 8192 * massFrom s.cfg (i + 1) :=
        add_le_add (mul_le_mul_of_nonneg_left hsample (abs_nonneg _)) (h.rRead_range hi)
    _ = 8192 * massFrom s.cfg i := by rw [massFrom_step _ hi]; ring

/-- The frame index of a transition is below `FRAME_LEN`, active or not. -/
theorem frameNext_index_lt {c : Config} (hl : legal c = true) (b : Block) (trig : Bool) :
    (frameNext c b trig).index < c.frameLen := by
  obtain ⟨-, hF, -, -⟩ := (legal_iff_rules c).1 hl
  obtain ⟨hactive, hidle⟩ := frameNext_bounds c b trig hF
  cases ha : (frameNext c b trig).active with
  | true => exact hactive ha
  | false => rw [hidle ha]; exact hF

/-- An ordinary step keeps the invariant. -/
theorem Inv.nextRun (h : Inv s) (hx : InSampleRange x) {t : State} (hcfg : t.cfg = s.cfg)
    (hblk : t.blk = nextRun s.cfg s.blk x) (hlog : t.log.length = t.n) : Inv t := by
  obtain ⟨-, hF, -, -⟩ := (legal_iff_rules s.cfg).1 h.admitted
  have hframe := frameNext_bounds s.cfg s.blk (triggerOut s.cfg s.blk) hF
  obtain ⟨hs0, hs1, hs2, -⟩ := h.chainRange
  constructor
  case logLength => exact hlog
  all_goals simp only [hcfg, hblk]
  case admitted => exact h.admitted
  case sharedStage => rfl
  case tapRange =>
    intro i hi
    rw [nextRun_d0Read _ _ _ hi, nextRun_d1Read]
    exact ⟨h.tapSum_range hx hi, (h.tapRange i hi).1⟩
  case chainRange => exact ⟨h.rRead_range (Nat.zero_le _), hs0, hs1, hs2⟩
  case holdRange => exact holdNext_le _ _ _ h.holdRange
  case frameActive => exact hframe.1
  case frameIdle => exact hframe.2
  case wpRange => exact Nat.mod_lt _ (ringLen_pos _)
  case ringWf => exact Memory.wf_write h.ringWf _ _
  case ringSlots =>
    intro k hk
    have hwp := h.wpRange
    rw [nextRun_ring, Memory.read_write_other _ _ (by omega), h.ringSlots k hk]
  case ringSamples =>
    intro k
    rw [nextRun_ring]
    obtain rfl | hk := eq_or_ne k s.blk.wp
    · rwa [Memory.read_write_same h.ringWf]
    · rw [Memory.read_write_other _ _ hk]
      exact h.ringSamples k

/-- Settles O26: a `STEP` beat keeps each field, and a `RESET` beat leaves the all-zero block. -/
theorem invariantKeptByEveryStep : Obligations.InvariantKeptByEveryStep := by
  intro s t h hstep
  obtain ⟨w, ws, -, hl, rfl⟩ := (step_eq_next_iff s t).1 hstep
  have hlog : (s.log ++ [outRecord s.cfg s.blk s.n (decode w).sample]).length = s.n + 1 := by simp [h.logLength]
  have hx := decode_sample_range w
  cases hd : decode w with
  | step x =>
    rw [hd] at hx hlog
    exact h.nextRun hx rfl rfl hlog
  | reset x =>
    rw [hd] at hlog
    exact inv_of_zero hl rfl hlog

/-- Every datapath value is within the mass of all taps. -/
theorem Inv.datapath_range (h : Inv s) (hx : InSampleRange x) {v : Int}
    (hv : (∃ i < 32, v = s.blk.rRead i ∨ v = s.blk.d0Read i ∨ v = s.blk.d1Read i ∨ v = tapSum s.cfg s.blk x i) ∨
      v = s.blk.s0 ∨ v = s.blk.s1 ∨ v = s.blk.s2 ∨ v = s.blk.s3 ∨ v = proc s.cfg s.blk.s1) :
    |v| ≤ 8192 * massFrom s.cfg 0 := by
  obtain ⟨hs0, hs1, hs2, hs3⟩ := h.chainRange
  obtain ⟨i, hi, htap⟩ | rfl | rfl | rfl | rfl | rfl := hv
  · have hall : 8192 * massFrom s.cfg i ≤ 8192 * massFrom s.cfg 0 :=
      mul_le_mul_of_nonneg_left (massFrom_anti s.cfg (Nat.zero_le i)) (by decide)
    obtain rfl | rfl | rfl | rfl := htap
    · exact (h.rRead_range hi.le).trans hall
    · exact (h.tapRange i hi).1.trans hall
    · exact (h.tapRange i hi).2.trans hall
    · exact (h.tapSum_range hx hi).trans hall
  · exact hs0
  · exact hs1
  · exact hs2
  · exact hs3
  · rwa [abs_proc]

end Inv

/-- A value within the mass of all taps is read back from `ACC_W` bits (00_scope.md R10). -/
theorem toInt_ofInt_accW {c : Config} (hl : legal c = true) {v : Int} (hv : |v| ≤ 8192 * massFrom c 0) :
    (BitVec.ofInt c.accW v).toInt = v := by
  obtain ⟨hw, hb⟩ := massFrom_bound hl
  obtain ⟨hlo, hhi⟩ := abs_le.1 hv
  exact BitVec.toInt_ofInt_eq_self hw (by omega) (by omega)

/-- Settles O30: every datapath value is within the bound that an admitted configuration meets. -/
theorem datapathFitsAccumulatorWidth : Obligations.DatapathFitsAccumulatorWidth := fun _ _ _ h hx hv =>
  toInt_ofInt_accW h.admitted (h.datapath_range hx hv)

/-- The frame counter counts frame starts (44_frame.md R189). -/
theorem frameNext_id (c : Config) (b : Block) (trig : Bool) : (frameNext c b trig).id =
    if (frameNext c b trig).start = true then b.fId + 1 else b.fId := by
  unfold frameNext; split_ifs <;> simp_all

/-- Settles O29: a `STEP` beat reports and stores one `frameNext`, and a `RESET` beat clears the counter. -/
theorem frameIdCountsFrameStarts : Obligations.FrameIdCountsFrameStarts := by
  intro s t o hstep hlog
  obtain ⟨w, ws, hin, -, rfl⟩ := (step_eq_next_iff s t).1 hstep
  obtain rfl : outRecord s.cfg s.blk s.n (decode w).sample = o := by simpa using hlog
  refine ⟨w, ws, hin, ?_⟩
  cases hd : decode w with
  | step x => exact frameNext_id s.cfg s.blk _
  | reset x => rfl

/-- A sample is read back from its 14-bit port (30_encoding.md R88). -/
theorem toInt_ofInt_sample {x : Int} (hx : InSampleRange x) : (BitVec.ofInt 14 x).toInt = x := by
  rw [← sext14_eq_toInt, sext14_ofInt hx]

theorem ofBool_eq_one_iff (b : Bool) : BitVec.ofBool b = 1#1 ↔ b = true := by cases b <;> decide

/-- The delayed sample is a sample (45_raw_delay.md R201). -/
theorem Inv.rawDelayOut_range {s : State} (h : Inv s) {x : Int} (hx : InSampleRange x) :
    InSampleRange (rawDelayOut s.cfg s.blk x) := by
  obtain ⟨-, hout⟩ | ⟨-, hout⟩ := rawDelayOut_cases s.cfg s.blk x
  · rwa [hout]
  · rw [hout]
    exact h.ringSamples _

/-- Settles O31: under the invariant every field of the record is in the range of its port. -/
theorem portsCarryTheRecord : Obligations.PortsCarryTheRecord := by
  intro i s t o fidxW frameIdW h hexec hlog hfidx hid p
  obtain ⟨hl, hx, rfl⟩ := (exec_eq_next_iff i s t).1 hexec
  obtain rfl : outRecord s.cfg s.blk s.n i.sample = o := by simpa using hlog
  obtain ⟨-, hs1, -, -⟩ := h.chainRange
  have hindex : (frameNext s.cfg s.blk (triggerOut s.cfg s.blk)).index < 2 ^ fidxW :=
    (frameNext_index_lt hl _ _).trans_le hfidx
  refine ⟨toInt_ofInt_sample hx, toInt_ofInt_sample (h.rawDelayOut_range hx), toInt_ofInt_accW hl hs1,
    toInt_ofInt_accW hl ((abs_proc _ _).trans_le hs1), ofBool_eq_one_iff _, ofBool_eq_one_iff _, ofBool_eq_one_iff _,
    ofBool_eq_one_iff _, ?_, frameIdPort_toNat hid⟩
  exact (BitVec.toNat_ofNat _ _).trans (Nat.mod_eq_of_lt hindex)

end Sys2Proof.Machine
end

section
/-! What follows a trigger, a frame start and a reset, over the next steps (43_trigger.md R165, 44_frame.md R187, R188,
70_reset_and_hazards.md R262). -/

namespace Sys2Proof.Machine

/-- Past the end of a stream there is no reset either: the word 0 is a `STEP`. -/
theorem resetOf_eq_false {bs : List BeatWord} {j : Nat}
    (h : ∀ w, bs[j]? = some w → (decode w).isReset = false) : resetOf bs j = false := by
  rw [resetOf, List.getD_eq_getElem?_getD]
  cases hw : bs[j]? with
  | none => decide
  | some w => exact h w hw

/-- The first record of a run is that of its first state. -/
theorem steps_first_record {k : Nat} {s t : State} {new : List OutputRecord} {o : OutputRecord}
    (h : steps k s = .next t) (hlog : t.log = s.log ++ new) (ho : new[0]? = some o) :
    o = outRecord s.cfg s.blk s.n (sampleOf s.input 0) := by
  obtain ⟨u, hu, hrec⟩ := steps_new_record h hlog ho
  cases hu
  exact hrec

/-- From an accepted trigger on, the detector counts its dead time down. -/
theorem hold_countdown {s u : State} {j : Nat} (ht : triggerOut s.cfg s.blk = true) (hj : j ≤ s.cfg.holdoff)
    (hr : ∀ i ≤ s.cfg.holdoff, resetOf s.input i = false) (hu : steps (j + 1) s = .next u) :
    u.blk.hold + j = s.cfg.holdoff := by
  induction j generalizing u with
  | zero =>
    obtain ⟨v, hv, hblk⟩ := steps_blk_of_last_step hu (hr 0 hj)
    cases hv
    rw [hblk, nextRun_hold_of_trigger ht, Nat.add_zero]
  | succ j ih =>
    obtain ⟨v, hv, hblk⟩ := steps_blk_of_last_step hu (hr (j + 1) hj)
    have hbefore := ih (by omega) hv
    rw [hblk, nextRun_hold, holdNext_suppressed (by omega)]
    omega

/-- Settles O38: in the dead time the counter is above 0, and at its end it is 0. -/
theorem deadTimeAfterTrigger : Obligations.DeadTimeAfterTrigger := by
  intro s t new h hlog hbeats hfirst
  have hr (i : Nat) (hi : i ≤ s.cfg.holdoff) : resetOf s.input i = false := resetOf_eq_false (hbeats i hi)
  have ht : triggerOut s.cfg s.blk = true := by
    obtain ⟨o, ho, htrig⟩ := hfirst
    rwa [steps_first_record h hlog ho] at htrig
  constructor
  · intro j o h1 hj ho
    obtain ⟨u, hu, rfl⟩ := steps_new_record h hlog ho
    obtain ⟨i, rfl⟩ := Nat.exists_eq_add_of_le' h1
    have hcount := hold_countdown ht (by omega) hr hu
    exact triggerOut_of_hold_pos (by omega)
  · have hcount := hold_countdown ht le_rfl hr h
    omega

/-- A frame starts on a trigger while none is active (44_frame.md R182). -/
theorem frameNext_start_iff (c : Config) (b : Block) (trig : Bool) :
    (frameNext c b trig).start = true ↔ b.fActive = false ∧ trig = true := by
  unfold frameNext; split_ifs <;> simp_all

/-- The frame registers after an ordinary step are those of its transition. -/
theorem nextRun_frame {c : Config} {b : Block} {active start : Bool} {index id : Nat}
    (h : frameNext c b (triggerOut c b) = ⟨active, index, id, start⟩) (x : Int) :
    (nextRun c b x).fActive = active ∧ (nextRun c b x).fIndex = index ∧ (nextRun c b x).fId = id := by
  rw [nextRun_fActive, nextRun_fIndex, nextRun_fId, h]
  exact ⟨rfl, rfl, rfl⟩

/-- Step `j` of a frame that opened at step 0 has index `j` and the frame's one id. -/
theorem frameNext_of_opened {s v : State} {j : Nat}
    (hstart : (frameNext s.cfg s.blk (triggerOut s.cfg s.blk)).start = true)
    (hj : j < s.cfg.frameLen) (hr : ∀ i < s.cfg.frameLen, resetOf s.input i = false) (hv : steps j s = .next v) :
    frameNext s.cfg v.blk (triggerOut s.cfg v.blk) = ⟨true, j, s.blk.fId + 1, decide (j = 0)⟩ := by
  induction j generalizing v with
  | zero =>
    obtain ⟨hidle, htrig⟩ := (frameNext_start_iff _ _ _).1 hstart
    cases hv
    rw [htrig, frameNext_open hidle]
    rfl
  | succ j ih =>
    obtain ⟨u, hu, hblk⟩ := steps_blk_of_last_step hv (hr j (by omega))
    obtain ⟨hact, hidx, hid⟩ := hblk ▸ nextRun_frame (ih (by omega) hu) _
    rw [frameNext_advance hact (by omega), hidx, hid]
    rfl

/-- After `FRAME_LEN` steps the frame is over, whatever triggers then (44_frame.md R184). -/
theorem frameNext_of_elapsed {s v : State} (hstart : (frameNext s.cfg s.blk (triggerOut s.cfg s.blk)).start = true)
    (hF : 1 ≤ s.cfg.frameLen) (hr : ∀ i < s.cfg.frameLen, resetOf s.input i = false)
    (hv : steps s.cfg.frameLen s = .next v) :
    frameNext s.cfg v.blk (triggerOut s.cfg v.blk) = ⟨false, 0, s.blk.fId + 1, false⟩ := by
  obtain ⟨i, hi⟩ := Nat.exists_eq_add_of_le' hF
  rw [hi] at hv
  obtain ⟨u, hu, hblk⟩ := steps_blk_of_last_step hv (hr i (by omega))
  obtain ⟨hact, hidx, hid⟩ := hblk ▸ nextRun_frame (frameNext_of_opened hstart (by omega) hr hu) _
  rw [frameNext_end hact (by omega), hid]

/-- Settles O39: each record of the run reports the transition of its step. -/
theorem frameRunsItsLength : Obligations.FrameRunsItsLength := by
  intro s t new h hlog hbeats hfirst
  have hr (i : Nat) (hi : i < s.cfg.frameLen) : resetOf s.input i = false := resetOf_eq_false (hbeats i hi)
  have hstart : (frameNext s.cfg s.blk (triggerOut s.cfg s.blk)).start = true := by
    obtain ⟨o, ho, hopen⟩ := hfirst
    rwa [steps_first_record h hlog ho] at hopen
  obtain ⟨-, hF, -, -⟩ := (legal_iff_rules s.cfg).1 (steps_succ_legal h)
  have hlen := steps_new_length h hlog
  constructor
  · intro j hj
    have ho : new[j]? = some new[j] := List.getElem?_eq_getElem (by omega)
    obtain ⟨u, hu, hrec⟩ := steps_new_record h hlog ho
    refine ⟨_, ho, ?_⟩
    rw [hrec]
    simp [frameTrigger_iff, frameNext_of_opened hstart hj hr hu]
  · have ho : new[s.cfg.frameLen]? = some new[s.cfg.frameLen] := List.getElem?_eq_getElem (by omega)
    obtain ⟨u, hu, hrec⟩ := steps_new_record h hlog ho
    refine ⟨_, ho, ?_⟩
    rw [hrec]
    simp [frameTrigger, frameNext_of_elapsed hstart hF hr hu]

/-- The whole record of the all-zero block. -/
theorem outRecord_zero (c : Config) (n : Nat) (x : Int) : outRecord c Block.zero n x =
    { index := n, raw := x, rawDelayed := if c.dataDelay = 0 then x else 0, xcorrRaw := 0, xcorrProc := 0,
      trigger := false, frameStart := false, frameActive := false, frameIndex := 0, frameId := 0,
      frameTrigger := false } := by
  have hidle : frameNext c Block.zero false = ⟨false, 0, 0, false⟩ := frameNext_idle Block.zero_fActive
  simp [outRecord, rawDelayOut, frameTrigger, hidle]

/-- Settles O43: the state before such a step is the all-zero one its predecessor left. -/
theorem consecutiveResetsReportZeros : Obligations.ConsecutiveResetsReportZeros := by
  intro k s t new h hlog hbeats j o h1 ho
  have hj : j < k := steps_new_length h hlog ▸ (List.getElem?_eq_some_iff.1 ho).1
  obtain ⟨u, hu, rfl⟩ := steps_new_record h hlog ho
  obtain ⟨i, rfl⟩ := Nat.exists_eq_add_of_le' h1
  rw [steps_blk_of_last_reset hu (hbeats i (by omega)), outRecord_zero]

end Sys2Proof.Machine
end

section
/-! Two runs side by side: a fresh epoch, another delay line, and a rotated ring (70_reset_and_hazards.md R264,
45_raw_delay.md R204, 10_state.md R37). -/

namespace Sys2Proof

/-- A configuration without its `DATA_DELAY`. -/
def Config.withoutDelay (c : Config) : Config := { c with dataDelay := 0 }

end Sys2Proof

namespace Sys2Proof.Machine

/-- A relation that every step of the first run hands on to the second holds after any number of steps. -/
theorem steps_simulation {R : State → State → Prop}
    (hR : ∀ {s s' t}, R s s' → step s = .next t → ∃ t', step s' = .next t' ∧ R t t')
    {k : Nat} {s s' t : State} (hs : R s s') (h : steps k s = .next t) :
    ∃ t', steps k s' = .next t' ∧ R t t' := by
  induction k generalizing t with
  | zero => cases h; exact ⟨s', rfl, hs⟩
  | succ k ih =>
    obtain ⟨u, hu, ht⟩ := (steps_last k s t).1 h
    obtain ⟨u', hu', hR'⟩ := ih hu
    obtain ⟨t', ht', hRt⟩ := hR hR' ht
    exact ⟨t', (steps_last k s' t').2 ⟨u', hu', ht'⟩, hRt⟩

/-- The same instance and the same beats ahead, and the same records from record `m` of the first run on, but for the
driver's step numbers. -/
structure SameButNumbers (m : Nat) (s s' : State) : Prop where
  cfg : s'.cfg = s.cfg
  blk : s'.blk = s.blk
  input : s'.input = s.input
  started : m ≤ s.log.length
  log : s'.log.map withoutIndex = (s.log.drop m).map withoutIndex

theorem SameButNumbers.step {m : Nat} {s s' t : State} (hs : SameButNumbers m s s') (h : step s = .next t) :
    ∃ t', step s' = .next t' ∧ SameButNumbers m t t' := by
  obtain ⟨w, ws, hin, hl, rfl⟩ := (step_eq_next_iff s t).1 h
  obtain ⟨hcfg, hblk, hinput, hstarted, hlog⟩ := hs
  refine ⟨_, (step_eq_next_iff s' _).2 ⟨w, ws, hinput.trans hin, hcfg ▸ hl, rfl⟩, hcfg, ?_, rfl, ?_, ?_⟩
  · rw [State.commit_blk, State.commit_blk, hcfg, hblk]
  · simpa using hstarted.trans (Nat.le_succ _)
  · simp only [State.commit_log, List.drop_append_of_le_length hstarted, List.map_append, hlog, hcfg, hblk]
    rfl

/-- Settles O42: after the reset step the state is a new instance's, but for the records and the step number. -/
theorem resetStartsFreshEpoch : Obligations.ResetStartsFreshEpoch := by
  intro s s' t w ws k hin hr hstep hrun
  obtain ⟨w', ws', hin', -, hs'⟩ := (step_eq_next_iff s s').1 hstep
  obtain ⟨rfl, rfl⟩ : w' = w ∧ ws' = ws := by simpa [hin] using hin'.symm
  have hfresh : SameButNumbers s'.log.length s' (started s.cfg ws') := by
    rw [hs']
    exact ⟨rfl, (blockAfter_of_isReset hr _ _).symm, rfl, le_rfl, by simp⟩
  obtain ⟨t', ht', hsame⟩ := steps_simulation SameButNumbers.step hfresh hrun
  exact ⟨t', ht', hsame.blk, hsame.log⟩

/-- A block without its ring and pointer. -/
def Block.withoutRing (b : Block) : Block := { b with ring := [], wp := 0 }

/-- The two instances differ in nothing but the delay line and what it reports (45_raw_delay.md R204). -/
structure SameButDelay (s s' : State) : Prop where
  cfg : s'.cfg.withoutDelay = s.cfg.withoutDelay
  blk : s'.blk.withoutRing = s.blk.withoutRing
  n : s'.n = s.n
  input : s'.input = s.input
  log : s'.log.map withoutDelayed = s.log.map withoutDelayed

/-- `DATA_DELAY` bears on no rule of admission: it is never negative. -/
theorem legal_withoutDelay (c : Config) : legal c.withoutDelay = legal c := by
  rw [Bool.eq_iff_iff, legal_iff_rules, legal_iff_rules]
  rfl

/-- The next block but for its ring is a function of the block but for its ring. -/
theorem blockAfter_withoutRing (c : Config) (b : Block) (i : Instr) :
    (blockAfter c b i).withoutRing = (blockAfter c.withoutDelay b.withoutRing i).withoutRing := by
  cases i <;> rfl

theorem outRecord_withoutDelayed (c : Config) (b : Block) (n : Nat) (x : Int) :
    withoutDelayed (outRecord c b n x) = withoutDelayed (outRecord c.withoutDelay b.withoutRing n x) := rfl

theorem SameButDelay.step {s s' t : State} (hs : SameButDelay s s') (h : step s = .next t) :
    ∃ t', step s' = .next t' ∧ SameButDelay t t' := by
  obtain ⟨w, ws, hin, hl, rfl⟩ := (step_eq_next_iff s t).1 h
  obtain ⟨hcfg, hblk, hn, hinput, hlog⟩ := hs
  have hl' : legal s'.cfg = true := by rwa [← legal_withoutDelay, hcfg, legal_withoutDelay]
  refine ⟨_, (step_eq_next_iff s' _).2 ⟨w, ws, hinput.trans hin, hl', rfl⟩, hcfg, ?_, congrArg (· + 1) hn, rfl, ?_⟩
  · rw [State.commit_blk, State.commit_blk, blockAfter_withoutRing, hcfg, hblk, ← blockAfter_withoutRing]
  · simp only [State.commit_log, List.map_append, hlog, List.map_cons, List.map_nil,
      outRecord_withoutDelayed s'.cfg, outRecord_withoutDelayed s.cfg, hcfg, hblk, hn]

/-- Settles O45: the two states differ in the delay line only, and every step keeps it so. -/
theorem delayLineFeedsNothingElse : Obligations.DelayLineFeedsNothingElse := by
  intro k s t delay ring wp h
  have hsame : SameButDelay s
      { s with cfg := { s.cfg with dataDelay := delay }, blk := { s.blk with ring := ring, wp := wp } } :=
    ⟨rfl, rfl, rfl, rfl, rfl⟩
  obtain ⟨t', ht', hsame⟩ := steps_simulation SameButDelay.step hsame h
  exact ⟨t', ht', hsame.log,
    congrArg (fun b : Block => { b with ring := t.blk.ring, wp := t.blk.wp }) hsame.blk⟩

/-- Block `b'` is block `b` with the ring and the pointer moved on by `a` slots (10_state.md R37). -/
structure RotatedBy (a L : Nat) (b b' : Block) : Prop where
  others : b'.withoutRing = b.withoutRing
  wf : Memory.wf b.ring = true
  wf' : Memory.wf b'.ring = true
  wpRange : b.wp < L
  wp : b'.wp = (b.wp + a) % L
  read : ∀ j < L, Memory.read b'.ring ((j + a) % L) = Memory.read b.ring j

section RotatedBy
variable {a : Nat} {c : Config} {b b' : Block}

/-- Slots moved on together meet only if they were one. -/
theorem add_mod_inj {L i j : Nat} (hi : i < L) (hj : j < L) (h : (i + a) % L = (j + a) % L) : i = j := by
  have := Nat.ModEq.add_right_cancel' a h
  rwa [Nat.ModEq, Nat.mod_eq_of_lt hi, Nat.mod_eq_of_lt hj] at this

/-- The slot after the pointer is moved on with it. -/
theorem RotatedBy.wp_succ {L : Nat} (h : RotatedBy a L b b') : (b'.wp + 1) % L = ((b.wp + 1) % L + a) % L := by
  rw [h.wp, Nat.mod_add_mod, Nat.mod_add_mod, Nat.add_right_comm]

theorem RotatedBy.outRecord (h : RotatedBy a (ringLen c) b b') (n : Nat) (x : Int) :
    outRecord c b' n x = outRecord c b n x := by
  have hdelayed : rawDelayOut c b' x = rawDelayOut c b x := by
    rw [rawDelayOut, rawDelayOut, h.wp_succ, h.read _ (Nat.mod_lt _ (ringLen_pos c))]
  have hrest : withoutDelayed (Machine.outRecord c b' n x) = withoutDelayed (Machine.outRecord c b n x) := by
    rw [outRecord_withoutDelayed, h.others, ← outRecord_withoutDelayed]
  calc Machine.outRecord c b' n x
      = { withoutDelayed (Machine.outRecord c b' n x) with rawDelayed := rawDelayOut c b' x } := rfl
    _ = { withoutDelayed (Machine.outRecord c b n x) with rawDelayed := rawDelayOut c b x } := by
        rw [hrest, hdelayed]

/-- An ordinary step writes both rings at their pointers and keeps the rotation. -/
theorem RotatedBy.nextRun (h : RotatedBy a (ringLen c) b b') (x : Int) :
    RotatedBy a (ringLen c) (nextRun c b x) (nextRun c b' x) where
  others := by
    have hothers := blockAfter_withoutRing c b' (.step x)
    rw [h.others, ← blockAfter_withoutRing] at hothers
    exact hothers
  wf := Memory.wf_write h.wf _ _
  wf' := Memory.wf_write h.wf' _ _
  wpRange := Nat.mod_lt _ (ringLen_pos c)
  wp := h.wp_succ
  read := fun j hj => by
    rw [nextRun_ring, nextRun_ring, h.wp]
    obtain rfl | hne := eq_or_ne j b.wp
    · rw [Memory.read_write_same h.wf', Memory.read_write_same h.wf]
    · rw [Memory.read_write_other _ _ fun heq => hne (add_mod_inj hj h.wpRange heq), h.read j hj,
        Memory.read_write_other _ _ hne]

/-- Empty rings are rotated by nothing. -/
theorem RotatedBy.zero (c : Config) : RotatedBy 0 (ringLen c) Block.zero Block.zero where
  others := rfl
  wf := rfl
  wf' := rfl
  wpRange := ringLen_pos c
  wp := (Nat.zero_mod _).symm
  read := fun _ _ => rfl

end RotatedBy

/-- The two instances differ in a rotation of the ring only. -/
structure SameButRotation (s s' : State) : Prop where
  rest : { s' with blk := s.blk } = s
  blk : ∃ a, RotatedBy a (ringLen s.cfg) s.blk s'.blk

theorem SameButRotation.step {s s' t : State} (hs : SameButRotation s s') (h : step s = .next t) :
    ∃ t', step s' = .next t' ∧ SameButRotation t t' := by
  obtain ⟨w, ws, hin, hl, rfl⟩ := (step_eq_next_iff s t).1 h
  obtain ⟨cfg, blk, n, input, log⟩ := s'
  obtain ⟨hrest, a, hrot⟩ := hs
  obtain ⟨rfl, rfl, rfl, rfl⟩ : cfg = s.cfg ∧ n = s.n ∧ input = s.input ∧ log = s.log :=
    ⟨congrArg State.cfg hrest, congrArg State.n hrest, congrArg State.input hrest, congrArg State.log hrest⟩
  refine ⟨_, (step_eq_next_iff _ _).2 ⟨w, ws, hin, hl, rfl⟩, ?_, ?_⟩
  · simp only [State.commit, hrot.outRecord]
  · cases hd : decode w with
    | step x => exact ⟨a, hrot.nextRun x⟩
    | reset x => exact ⟨0, .zero _⟩

/-- Settles O46: a rotation is kept by every ordinary step, and a reset ends in two equal blocks. -/
theorem ringRotationUnobservable : Obligations.RingRotationUnobservable := by
  intro k a s t ring hwf hwf' hwp hread h
  have hsame : SameButRotation s
      { s with blk := { s.blk with ring := ring, wp := (s.blk.wp + a) % ringLen s.cfg } } :=
    ⟨rfl, a, rfl, hwf, hwf', hwp, rfl, hread⟩
  obtain ⟨t', ht', hsame⟩ := steps_simulation SameButRotation.step hsame h
  have hlog := congrArg State.log hsame.rest
  exact ⟨t', ht', hlog⟩

end Sys2Proof.Machine
end

section
/-! The waveform decoders (47_external_collaborators.md R223, R224, R227). -/

namespace Sys2Proof.Machine

/-- A little-endian word is its low byte and 256 times its high byte. -/
theorem append_bytes_toNat (lo hi : BitVec 8) : (hi ++ lo : BitVec 16).toNat = lo.toNat + 256 * hi.toNat := by
  rw [BitVec.toNat_append, ← Nat.shiftLeft_add_eq_or_of_lt lo.isLt, Nat.shiftLeft_eq]
  omega

theorem toInt_eq_sub_of_signed (w : BitVec 16) :
    w.toInt = if 2 ^ 15 ≤ w.toNat then (w.toNat : Int) - 2 ^ 16 else (w.toNat : Int) := by
  rw [BitVec.toInt_eq_toNat_cond]
  split_ifs <;> omega

/-- The value of one word of a binary waveform, unsigned or in two's complement. -/
theorem bin16_word (signed : Bool) (lo hi : BitVec 8) :
    (if signed then (hi ++ lo : BitVec 16).toInt else ((hi ++ lo : BitVec 16).toNat : Int)) =
      let w : Nat := lo.toNat + 256 * hi.toNat
      if signed = true ∧ 2 ^ 15 ≤ w then (w : Int) - 2 ^ 16 else (w : Int) := by
  rw [toInt_eq_sub_of_signed, append_bytes_toNat]
  cases signed <;> simp

theorem bin16_length (o : Options) : ∀ file : List (BitVec 8), (bin16 o file).length = file.length / 2
  | [] => rfl
  | [_] => by simp
  | lo :: hi :: rest => by
    rw [bin16_cons, List.length_cons, bin16_length o rest, List.length_cons, List.length_cons]
    omega

/-- Word `j` of a binary waveform is read from bytes `2j` and `2j + 1`. -/
theorem bin16_getD (o : Options) : ∀ (file : List (BitVec 8)) (j : Nat), j < file.length / 2 →
    (bin16 o file).getD j 0 =
      let w : Nat := (file.getD (2 * j) 0).toNat + 256 * (file.getD (2 * j + 1) 0).toNat
      if o.bin16Signed = true ∧ 2 ^ 15 ≤ w then (w : Int) - 2 ^ 16 else (w : Int)
  | [], j, h => absurd h (Nat.not_lt_zero j)
  | [_], j, h => by simp at h
  | lo :: hi :: rest, 0, _ => bin16_word o.bin16Signed lo hi
  | lo :: hi :: rest, j + 1, h => by
    rw [List.length_cons, List.length_cons] at h
    rw [bin16_cons, List.getD_cons_succ, bin16_getD o rest j (by omega)]
    rfl

/-- Settles O48: with `input_bin16` the values are those of `bin16`. -/
theorem binaryWaveformRead : Obligations.BinaryWaveformRead := by
  intro o file h
  have hread : inputValues o file = bin16 o file := if_pos h
  rw [hread]
  exact ⟨bin16_length o file, bin16_getD o file⟩

/-- The characters of a line's bytes. -/
def lineChars (line : List (BitVec 8)) : List Char := line.map fun b => Char.ofNat b.toNat

/-- A file of one line gives what the line gives. -/
theorem textValues_line {line : List (BitVec 8)} (h : ∀ b ∈ line, b ≠ 10#8) :
    textValues line = (textLine (lineChars line)).toList := by
  rw [textValues, textLines_single [] line h]
  cases hv : textLine (lineChars line) <;> simp_all [lineChars]

/-- A line feed ends a line. -/
theorem textValues_append {line : List (BitVec 8)} (h : ∀ b ∈ line, b ≠ 10#8) (rest : List (BitVec 8)) :
    textValues (line ++ 10#8 :: rest) = textValues line ++ textValues rest := by
  rw [textValues, textLines_append [] line rest h, ← List.singleton_append, List.filterMap_append, textValues,
    textLines_single [] line h, textValues]

/-- The characters of the digits' bytes. -/
theorem lineChars_digits (digits : List (Fin 10)) :
    lineChars (digits.map fun d => BitVec.ofNat 8 (48 + d.val)) = digits.map fun d => Char.ofNat (48 + d.val) := by
  rw [lineChars, List.map_map]
  refine List.map_congr_left fun d _ => congrArg Char.ofNat ?_
  exact Nat.mod_eq_of_lt (by omega)

theorem digit_byte_ne_lineFeed (d : Fin 10) : BitVec.ofNat 8 (48 + d.val) ≠ 10#8 := by revert d; decide

theorem digit_char_ne_sign (d : Fin 10) : Char.ofNat (48 + d.val) ≠ '-' := by revert d; decide

theorem digit_char_ne_comment (d : Fin 10) : Char.ofNat (48 + d.val) ≠ '#' := by revert d; decide

/-- A non-empty string of digits is a numeral. -/
theorem decimal_digits {digits : List (Fin 10)} (h : digits ≠ []) :
    decimal (digits.map fun d => Char.ofNat (48 + d.val)) = some (digits.foldl (fun acc d => 10 * acc + d.val) 0) := by
  rw [decimal, decimalFrom_digits, if_neg (by simpa using h)]

theorem signedDecimal_minus (ds : List Char) :
    signedDecimal ('-' :: ds) = (decimal ds).map fun d : Nat => -(d : Int) := by
  cases h : decimal ds <;> simp [signedDecimal, h]

theorem signedDecimal_unsigned {c : Char} (h : c ≠ '-') (ds : List Char) :
    signedDecimal (c :: ds) = (decimal (c :: ds)).map fun d : Nat => (d : Int) := by
  unfold signedDecimal
  split
  · simp_all
  · cases decimal (c :: ds) <;> rfl

/-- A line of digits gives its value. -/
theorem textLine_digits {digits : List (Fin 10)} (h : digits ≠ []) :
    textLine (digits.map fun d => Char.ofNat (48 + d.val)) =
      some ((digits.foldl (fun acc d => 10 * acc + d.val) 0 : Nat) : Int) := by
  obtain ⟨d, ds, rfl⟩ := List.exists_cons_of_ne_nil h
  refine textLine_of_signedDecimal (by simpa using digit_char_ne_comment d) ?_
  have hdec := decimal_digits h
  rw [List.map_cons] at hdec ⊢
  rw [signedDecimal_unsigned (digit_char_ne_sign d), hdec, Option.map_some]

/-- A line of digits behind a minus sign gives the value negated. -/
theorem textLine_minus_digits {digits : List (Fin 10)} (h : digits ≠ []) :
    textLine ('-' :: digits.map fun d => Char.ofNat (48 + d.val)) =
      some (-((digits.foldl (fun acc d => 10 * acc + d.val) 0 : Nat) : Int)) := by
  refine textLine_of_signedDecimal (by simp) ?_
  rw [signedDecimal_minus, decimal_digits h, Option.map_some]

/-- A blank line and a comment line give nothing. -/
theorem textLine_skipped {line : List (BitVec 8)} (h : line = [] ∨ line.head? = some 35#8) :
    textLine (lineChars line) = none := by
  obtain rfl | hhead := h
  · exact textLine_blank
  · obtain ⟨rest, rfl⟩ := List.head?_eq_some_iff.1 hhead
    exact textLine_comment _

/-- Settles O49: a line feed cuts the file, and each line gives what `textLine` gives of its characters. -/
theorem textWaveformRead : Obligations.TextWaveformRead := by
  intro o h
  have hread (file : List (BitVec 8)) : inputValues o file = textValues file := if_neg (by simp [h])
  simp only [hread]
  refine ⟨fun line rest hline => ⟨textValues_append hline rest, ?_, fun hskip => ?_⟩, fun digits hne => ?_⟩
  · rw [textValues_line hline]
    cases textLine (lineChars line) <;> simp
  · rw [textValues_line hline, textLine_skipped hskip]
    rfl
  · have hbytes : ∀ b ∈ digits.map fun d => BitVec.ofNat 8 (48 + d.val), b ≠ 10#8 := by
      simpa using fun d _ => digit_byte_ne_lineFeed d
    constructor
    · rw [textValues_line hbytes, lineChars_digits, textLine_digits hne]
      rfl
    · have hminus : ∀ b ∈ 45#8 :: digits.map fun d => BitVec.ofNat 8 (48 + d.val), b ≠ 10#8 :=
        List.forall_mem_cons.2 ⟨by decide, hbytes⟩
      have hchars : lineChars (45#8 :: digits.map fun d => BitVec.ofNat 8 (48 + d.val)) =
          '-' :: digits.map fun d => Char.ofNat (48 + d.val) := congrArg ('-' :: ·) (lineChars_digits digits)
      rw [textValues_line hminus, hchars, textLine_minus_digits hne]
      rfl

end Sys2Proof.Machine
end
